-- ==== Sys2Proof/Word.lean ====
section
/-! DEFINITION. Words, bytes and the names of the wire: levels, directions, pin roles. -/

namespace Sys2Proof

/-- One element of the command stream: 32 bits (rule R14). -/
abbrev Word := BitVec 32

/-- One unit on the wire, "an 8-bit unsigned value" (rule R13). -/
abbrev Byte := BitVec 8

/-- The two levels a pin can be written to or read at (rule R18). -/
inductive Level where
  | low
  | high
  deriving DecidableEq, Repr, Inhabited

/-- The two directions a pin can be configured to: In and Out (rule R18, rule R22). -/
inductive Direction where
  | input
  | output
  deriving DecidableEq, Repr

/-- The three pin roles the block owns: CLK, CE and DIO (rule R2, rule R21). -/
inductive Role where
  | clk
  | ce
  | dio
  deriving DecidableEq, Repr

end Sys2Proof
end

