-- ==== Sys2Proof/Config.lean ====
section
/-! DEFINITION. What an implementation fixes (the OPEN parameters) and the free values of the environment.
Every constant here is opaque and has no body, so a theorem holds whatever its value is. -/

namespace Sys2Proof

/-- `T_PULSE_US`, the hold delay of each clock level in microseconds: OPEN, a natural number (rule R12).
Log entry 4. -/
opaque Config.tPulseUs : Nat

/-- FREE VALUE: the level the environment answers at the k-th draw, when the state's list of known draws does not
say it: "any of Low, High, under no law the block assumes" (rule R25). Log entry 3. -/
opaque Config.freeDraw : Nat → Level

/-- OPEN: the three numbers from which the pin identifiers are made (rule R11). Log entry 5. -/
opaque Config.pinSeedClk : Nat
/-- OPEN: see `Config.pinSeedClk`. -/
opaque Config.pinSeedCe : Nat
/-- OPEN: see `Config.pinSeedClk`. -/
opaque Config.pinSeedDio : Nat

/-- The seed-th natural number that is not `a`. -/
def Config.skipOne (a seed : Nat) : Nat := if seed < a then seed else seed + 1

/-- `PIN_CLK` (rule R11). -/
def Config.pinClk : Nat := Config.pinSeedClk

/-- `PIN_CE` (rule R11): any number but `PIN_CLK`. -/
def Config.pinCe : Nat := Config.skipOne Config.pinClk Config.pinSeedCe

/-- `PIN_DIO` (rule R11): any number but `PIN_CLK` and `PIN_CE`. -/
def Config.pinDio : Nat :=
  Config.skipOne (max Config.pinClk Config.pinCe)
    (Config.skipOne (min Config.pinClk Config.pinCe) Config.pinSeedDio)

/-- The physical pin identifier of a role (rule R11). -/
def Config.pinId : Role → Nat
  | .clk => Config.pinClk
  | .ce => Config.pinCe
  | .dio => Config.pinDio

end Sys2Proof
end

