-- ==== Sys2Proof/Syntax.lean ====
section
/-! DEFINITION. The eight commands of spec/opcode_table.json, with their operands. -/

namespace Sys2Proof

/-- A decoded command (rule R85), one constructor per row of the opcode table. -/
inductive Instr where
  /-- PSB: pin session begin (rule R120). -/
  | psb
  /-- PSE: pin session end (rule R121). -/
  | pse
  /-- CEB: assert chip-enable (rule R140). -/
  | ceb
  /-- CEE: deassert chip-enable and release DIO (rule R141). -/
  | cee
  /-- SEND v: transmit one byte (rule R161). -/
  | send (v : Byte)
  /-- RECV: receive one byte (rule R162). -/
  | recv
  /-- XFW a, data: one write session; the count n is the length of the payload (rule R190). -/
  | xfw (a : Byte) (data : List Byte)
  /-- XFR a, n: one read session of n bytes (rule R191). -/
  | xfr (a : Byte) (n : BitVec 8)
  deriving DecidableEq, Repr

end Sys2Proof
end

