-- ==== Sys2Proof/WellFormed.lean ====
section
/-! DEFINITION. Which commands have an encoding: the payload of XFW fits its 8-bit count. -/

namespace Sys2Proof

/-- A command whose operands fit their fields (rule R15, rule R92): bytes and the count of XFR fit by
their type; the payload of XFW holds at most 255 bytes. -/
def Instr.wellFormed : Instr → Bool
  | .psb => true
  | .pse => true
  | .ceb => true
  | .cee => true
  | .send _ => true
  | .recv => true
  | .xfw _ data => decide (data.length ≤ 255)
  | .xfr _ _ => true

end Sys2Proof
end

