-- ==== Sys2Proof/Decode.lean ====
section
/-! DEFINITION. Decoding the command stream, total on any list of words (rule R80 to rule R91), the encoder beside it,
and the opcode table's rows of masks and matches (rule R85). -/

namespace Sys2Proof

/-- `op = w[31:28]` (rule R82). -/
def opField (w : Word) : BitVec 4 := w.extractLsb' 28 4
/-- `rsv = w[27:16]` (rule R82). -/
def rsvField (w : Word) : BitVec 12 := w.extractLsb' 16 12
/-- `cnt = w[15:8]` (rule R82). -/
def cntField (w : Word) : BitVec 8 := w.extractLsb' 8 8
/-- `imm = w[7:0]` (rule R82). -/
def immField (w : Word) : Byte := w.extractLsb' 0 8
/-- `zero = d[31:8]`, the field of a data word that must be 0 (rule R81). -/
def zeroField (d : Word) : BitVec 24 := d.extractLsb' 8 24
/-- `data = d[7:0]` (rule R82). -/
def dataField (d : Word) : Byte := d.extractLsb' 0 8

/-- What the decoder finds at a position of the stream. -/
inductive DecodeResult where
  /-- A legal command, with the words after it. -/
  | command (i : Instr) (rest : List Word)
  /-- The word is no command: `Fault(1)` (rule R86, rule R87, rule R88). -/
  | illegal
  /-- An XFW whose payload is missing or has non-zero high bits: `Fault(2)` (rule R89). -/
  | malformed
  /-- There is no word at this position. -/
  | endOfStream
  deriving DecidableEq, Repr

/-- The payload of `n` data words at the head of a list, with the words after it; `none` where a word is missing or has
`zero != 0` (rule R81, rule R89). -/
def takePayload : Nat → List Word → Option (List Byte × List Word)
  | 0, ws => some ([], ws)
  | _ + 1, [] => none
  | n + 1, d :: ws =>
    if zeroField d = 0 then
      match takePayload n ws with
      | some (bytes, rest) => some (dataField d :: bytes, rest)
      | none => none
    else none

/-- A command that uses neither `cnt` nor `imm` is legal only where both are 0 (rule R88). -/
def decodePlain (i : Instr) (w : Word) (rest : List Word) : DecodeResult :=
  if cntField w = 0 ∧ immField w = 0 then .command i rest else .illegal

/-- SEND uses `imm` alone (rule R88). -/
def decodeSend (w : Word) (rest : List Word) : DecodeResult :=
  if cntField w = 0 then .command (.send (immField w)) rest else .illegal

/-- XFW takes the next `cnt` words as its payload (rule R84, rule R89). -/
def decodeXfw (w : Word) (rest : List Word) : DecodeResult :=
  match takePayload (cntField w).toNat rest with
  | some (bytes, rest') => .command (.xfw (immField w) bytes) rest'
  | none => .malformed

/-- The decoder (the pseudocode `decode(S, k)` of spec/30_encoding.md), on the words from `cidx` on. -/
def decode : List Word → DecodeResult
  | [] => .endOfStream
  | w :: rest =>
    if rsvField w ≠ 0 then .illegal
    else
      match (opField w).toNat with
      | 1 => decodePlain .psb w rest
      | 2 => decodePlain .pse w rest
      | 3 => decodePlain .ceb w rest
      | 4 => decodePlain .cee w rest
      | 5 => decodeSend w rest
      | 6 => decodePlain .recv w rest
      | 7 => decodeXfw w rest
      | 8 => .command (.xfr (immField w) (cntField w)) rest
      | _ => .illegal

/-- The decoder at word index `k` of the stream `S`. -/
def decodeAt (S : List Word) (k : Nat) : DecodeResult := decode (S.drop k)

/-- The format C word of the given fields, `rsv` = 0 (rule R80, rule R92). -/
def formatC (op : BitVec 4) (cnt : BitVec 8) (imm : Byte) : Word :=
  BitVec.ofNat 32 (op.toNat * 2 ^ 28 + cnt.toNat * 2 ^ 8 + imm.toNat)

/-- The format D word of one data byte (rule R81). -/
def formatD (d : Byte) : Word := BitVec.ofNat 32 d.toNat

/-- The words of a command (rule R92); of a well-formed command, the words the decoder reads it from. -/
def encode : Instr → List Word
  | .psb => [formatC 1 0 0]
  | .pse => [formatC 2 0 0]
  | .ceb => [formatC 3 0 0]
  | .cee => [formatC 4 0 0]
  | .send v => [formatC 5 0 v]
  | .recv => [formatC 6 0 0]
  | .xfw a data => formatC 7 (BitVec.ofNat 8 data.length) a :: data.map formatD
  | .xfr a n => [formatC 8 n a]

/-- The length of a command in words: `1 + cnt` for XFW, 1 for every other (rule R84). -/
def Instr.words : Instr → Nat
  | .psb => 1
  | .pse => 1
  | .ceb => 1
  | .cee => 1
  | .send _ => 1
  | .recv => 1
  | .xfw _ data => 1 + data.length
  | .xfr _ _ => 1

/-- One row of the opcode table: "a word w selects a row when w & mask = match" (rule R85). -/
structure OpcodeRow where
  mnemonic : String
  matchWord : Word
  maskWord : Word
  deriving DecidableEq, Repr

/-- The rows of rule R85, in the table's order. -/
def opcodeTable : List OpcodeRow :=
  [ ⟨"PSB", 0x10000000, 0xFFFFFFFF⟩,
    ⟨"PSE", 0x20000000, 0xFFFFFFFF⟩,
    ⟨"CEB", 0x30000000, 0xFFFFFFFF⟩,
    ⟨"CEE", 0x40000000, 0xFFFFFFFF⟩,
    ⟨"SEND", 0x50000000, 0xFFFFFF00⟩,
    ⟨"RECV", 0x60000000, 0xFFFFFFFF⟩,
    ⟨"XFW", 0x70000000, 0xFFFF0000⟩,
    ⟨"XFR", 0x80000000, 0xFFFF0000⟩ ]

/-- A word selects a row (rule R85). -/
def OpcodeRow.selects (r : OpcodeRow) (w : Word) : Bool := decide (w &&& r.maskWord = r.matchWord)

/-- The mnemonic of a command's row. -/
def Instr.mnemonic : Instr → String
  | .psb => "PSB"
  | .pse => "PSE"
  | .ceb => "CEB"
  | .cee => "CEE"
  | .send _ => "SEND"
  | .recv => "RECV"
  | .xfw _ _ => "XFW"
  | .xfr _ _ => "XFR"

/-- The words of an instruction whose bits, as the opcode table numbers them, are the low `nbits` bits of `w`: the first
word is bits 31..0, each later word the next 32 bits, and every bit above `nbits` is 0. As many words as the instruction
has (rule R84), and at least as many as `nbits` fills. Log entry 13. -/
def tableWords (nbits w : Nat) : List Word :=
  let bits := w % 2 ^ nbits
  let first : Word := BitVec.ofNat 32 bits
  let len := if (opField first).toNat = 7 then 1 + (cntField first).toNat else 1
  (List.range (max len ((nbits + 31) / 32))).map fun j => BitVec.ofNat 32 (bits >>> (32 * j))

/-- The command the decoder reads from the words `tableWords` lays out; `none` where it refuses. -/
def decodeTableWord (nbits w : Nat) : Option Instr :=
  match decode (tableWords nbits w) with
  | .command i _ => some i
  | .illegal => none
  | .malformed => none
  | .endOfStream => none

end Sys2Proof
end

