-- ==== Sys2Proof/Machine/State.lean ====
section
/-! DEFINITION. The state of the block as plain data, the reasons a step can stop, and the state after reset. -/

namespace Sys2Proof.Machine

/-- `dir[r]`: In or Out, or Unknown where the block has not configured the pin (rule R22). -/
inductive DirState where
  | unknown
  | known (d : Direction)
  deriving DecidableEq, Repr

/-- `lat[r]`: Low or High, or Unknown where the latch was never written (rule R23). -/
inductive LatState where
  | unknown
  | known (l : Level)
  deriving DecidableEq, Repr

/-- The direction and the output latch of each pin role (rule R21). -/
structure Pins where
  dirClk : DirState
  dirCe : DirState
  dirDio : DirState
  latClk : LatState
  latCe : LatState
  latDio : LatState
  deriving DecidableEq, Repr

/-- `ses`, the session phase (rule R29). -/
inductive Phase where
  /-- 0: no chip-enable session is open. -/
  | closed
  /-- 1: CE asserted, no byte sent yet. -/
  | openEmpty
  /-- 2: exactly the command byte sent. -/
  | cmdSent
  /-- 3: command byte and one or more data bytes sent. -/
  | writing
  /-- 4: command byte sent and one or more bytes received. -/
  | reading
  deriving DecidableEq, Repr

/-- A pin event (rule R45). -/
inductive Event where
  /-- `Dir(r, d)`, produced by `PinDir(r, d)`. -/
  | dir (r : Role) (d : Direction)
  /-- `Wr(r, l)`, produced by `PinWrite(r, l)`. -/
  | wr (r : Role) (l : Level)
  /-- `Rd(r, l)`, produced by `PinRead(r)` returning `l`. -/
  | rd (r : Role) (l : Level)
  /-- `Dly(t)`, produced by `Delay(t)`, t in microseconds. -/
  | dly (t : Nat)
  deriving DecidableEq, Repr

/-- The ten fault conditions of the block (rule R211 to rule R220). Raising one is a NEXT state (rule R222). -/
inductive FaultCause where
  /-- Code 1 (rule R211). -/
  | illegalCommand
  /-- Code 2 (rule R212). -/
  | malformedPayload
  /-- Code 3 (rule R213). -/
  | pinSessionMisuse
  /-- Code 4 (rule R214). -/
  | pinsNotReady
  /-- Code 5 (rule R215). -/
  | sessionAlreadyOpen
  /-- Code 6 (rule R216). -/
  | sessionNotOpen
  /-- Code 7 (rule R217). -/
  | commandByteMissing
  /-- Code 8 (rule R218). -/
  | mixedDirection
  /-- Code 9 (rule R219). -/
  | sessionLeftOpen
  /-- Code 10 (rule R220). -/
  | pinSessionLeftActive
  deriving DecidableEq, Repr

/-- Everything the spec gives the block (spec/10_state.md, rule R61), and three fields of the model's own
(`draws`, `drawCount`, `drawBase`) that stand for the environment's answers to `PinRead`. -/
structure State where
  /-- The command stream, read-only in a run (rule R61, rule R75). -/
  stream : List Word
  /-- `cidx`, the word index of the next command (rule R36). -/
  cidx : Nat
  /-- `dir[r]` and `lat[r]` (rule R21). -/
  pins : Pins
  /-- `ps_active` (rule R28). -/
  psActive : Bool
  /-- `ses` (rule R29). -/
  ses : Phase
  /-- `acc`, the receive accumulator (rule R33). -/
  acc : Byte
  /-- `rx`, the RX stream, oldest byte first (rule R35). -/
  rx : List Byte
  /-- `FAULT_CODE` (rule R37). -/
  faultCode : BitVec 4
  /-- `FAULT_IDX` (rule R37, rule R39). -/
  faultIdx : BitVec 32
  /-- `FAULT_WORD` (rule R37, rule R39). -/
  faultWord : BitVec 32
  /-- The pin event trace since reset, oldest event first (rule R46). -/
  trace : List Event
  /-- MODEL'S OWN: levels the environment is known to answer to the next draws, oldest first (log entry 3). -/
  draws : List Level
  /-- MODEL'S OWN: draws made so far, over all runs; the free value is applied to it, so that no two draws share one, not even
  across a reset (log entry 3). -/
  drawCount : Nat
  /-- MODEL'S OWN: draws made before the last reset; `drawCount - drawBase` were made since (log entry 3). -/
  drawBase : Nat
  deriving DecidableEq, Repr

/-- The reasons a step stops with a fault OF THE MODEL. The block's own faults are next states (rule R222). -/
inductive Fault where
  /-- Raised by the fetch where `cidx` lies past the end of the stream, an index that does not exist; no run reaches it
  (the invariant `Safety.Invariant` rules it out). Safe: the model stops. Log entry 9. -/
  | fetchOutsideStream
  deriving DecidableEq, Repr

/-- The reasons a step is refused. -/
inductive Refusal where
  /-- Raised by an arm of `exec` for an instruction without a meaning, by its mnemonic; no arm raises it. Safe. -/
  | notModelled (mnemonic : String)
  /-- Raised by `step` on a command stream of 2^32 words or more: "A model refuses a longer stream" (rule R16). Safe. -/
  | streamTooLong
  deriving DecidableEq, Repr

/-- Directions and latches at reset (rule R42). -/
def Pins.reset : Pins where
  dirClk := .unknown
  dirCe := .unknown
  dirDio := .unknown
  latClk := .unknown
  latCe := .unknown
  latDio := .unknown

/-- The state right after reset (rule R42, rule R240). `acc` is unspecified there: 0 (log entry 1). The host has supplied
no stream yet: empty (log entry 2). No draw is known or made (log entry 3). -/
def State.reset : State where
  stream := []
  cidx := 0
  pins := Pins.reset
  psActive := false
  ses := .closed
  acc := 0
  rx := []
  faultCode := 0
  faultIdx := 0
  faultWord := 0
  trace := []
  draws := []
  drawCount := 0
  drawBase := 0

end Sys2Proof.Machine
end

