-- ==== Sys2Proof/Machine/Flags.lean ====
section
/-! DEFINITION. The codes of phases and faults, and the STATUS view (rule R29, rule R37, rule R38). The block has no other
flags (rule R41). -/

namespace Sys2Proof.Machine

/-- The SES code of a phase (rule R29). -/
def phaseCode : Phase → BitVec 3
  | .closed => 0
  | .openEmpty => 1
  | .cmdSent => 2
  | .writing => 3
  | .reading => 4

/-- The FAULT_CODE of a fault condition (rule R211 to rule R220). -/
def causeCode : FaultCause → BitVec 4
  | .illegalCommand => 1
  | .malformedPayload => 2
  | .pinSessionMisuse => 3
  | .pinsNotReady => 4
  | .sessionAlreadyOpen => 5
  | .sessionNotOpen => 6
  | .commandByteMissing => 7
  | .mixedDirection => 8
  | .sessionLeftOpen => 9
  | .pinSessionLeftActive => 10

/-- FAULTED: 1 iff `FAULT_CODE != 0` (rule R38). -/
def isFaulted (s : State) : Bool := decide (s.faultCode ≠ 0)

/-- The STATUS word (rule R38): bits 31:12 zero, 11:8 FAULT_CODE, 7:5 zero, 4 FAULTED, 3:1 SES, 0 PS_ACTIVE. -/
def statusWord (s : State) : BitVec 32 :=
  BitVec.ofNat 32 (s.psActive.toNat + (phaseCode s.ses).toNat * 2 ^ 1 + (isFaulted s).toNat * 2 ^ 4
    + s.faultCode.toNat * 2 ^ 8)

end Sys2Proof.Machine
end

