-- ==== Sys2Proof/Machine/Operands.lean ====
section
/-! DEFINITION. Operands: bits and levels, and the bits of a byte (rule R17, rule R18). There is no other operand form: every
operand is a byte or a count taken from the word as it stands (rule R83). -/

namespace Sys2Proof.Machine

/-- `lvl(b)`: bit 1 is High, bit 0 is Low (rule R18). -/
def lvl : Bool → Level
  | true => .high
  | false => .low

/-- `bit(l)`: High is 1, Low is 0 (rule R18). -/
def bitOf : Level → Bool
  | .high => true
  | .low => false

/-- `acc[i] <- b` (rule R17): bit `i` of `v` becomes `b`, every other bit stays. -/
def setBit (v : Byte) (i : Nat) (b : Bool) : Byte :=
  if b then v ||| BitVec.twoPow 8 i else v &&& ~~~(BitVec.twoPow 8 i)

/-- The levels a byte puts on DIO, bit 0 first (rule R62). -/
def byteLevels (v : Byte) : List Level := (List.range 8).map fun i => lvl (v.getLsbD i)

end Sys2Proof.Machine
end

