-- ==== Sys2Proof/Machine/Ops.lean ====
section
/-! DEFINITION. The shared operations: the pin primitives, the clock pulse, the byte bodies, raising a fault, the end of the
stream, fetching a command, and the host's two moves. -/

namespace Sys2Proof.Machine

/-! ## Pins -/

/-- `dir[r] <- d` (rule R22). -/
def setDir (p : Pins) (r : Role) (d : DirState) : Pins :=
  match r with
  | .clk => { p with dirClk := d }
  | .ce => { p with dirCe := d }
  | .dio => { p with dirDio := d }

/-- `lat[r] <- l` (rule R23). -/
def setLat (p : Pins) (r : Role) (l : LatState) : Pins :=
  match r with
  | .clk => { p with latClk := l }
  | .ce => { p with latCe := l }
  | .dio => { p with latDio := l }

/-- `dir[r]`. -/
def getDir (p : Pins) (r : Role) : DirState :=
  match r with
  | .clk => p.dirClk
  | .ce => p.dirCe
  | .dio => p.dirDio

/-- `lat[r]`. -/
def getLat (p : Pins) (r : Role) : LatState :=
  match r with
  | .clk => p.latClk
  | .ce => p.latCe
  | .dio => p.latDio

/-- `PinDir(r, d)`: one event, and `dir[r] <- d` (rule R18, rule R22). -/
def pinDir (r : Role) (d : Direction) (s : State) : State :=
  { s with pins := setDir s.pins r (.known d), trace := s.trace ++ [.dir r d] }

/-- `PinWrite(r, l)`: one event, and `lat[r] <- l` (rule R18, rule R23). -/
def pinWrite (r : Role) (l : Level) (s : State) : State :=
  { s with pins := setLat s.pins r (.known l), trace := s.trace ++ [.wr r l] }

/-- `Delay(t)`: one event, a timing annotation only (rule R18, rule R253). -/
def delay (t : Nat) (s : State) : State := { s with trace := s.trace ++ [.dly t] }

/-- The level the `k`-th draw from now on returns: the k-th known one, or else a free value (rule R25, log entry 3). -/
def drawAt (s : State) (k : Nat) : Level := s.draws.getD k (Config.freeDraw (s.drawCount + k))

/-- What `PinRead(r)` leaves behind: one event that records the level, and the draw is spent (rule R18, rule R25). -/
def afterRead (r : Role) (s : State) : State :=
  { s with trace := s.trace ++ [.rd r (drawAt s 0)], draws := s.draws.tail, drawCount := s.drawCount + 1 }

/-- `PinRead(r) -> l` (rule R18): the level the environment draws, and the state after. -/
def pinRead (r : Role) (s : State) : Level × State := (drawAt s 0, afterRead r s)

/-! ## Control and datapath -/

/-- `cidx <- cidx + n` (rule R19, rule R36). -/
def advance (n : Nat) (s : State) : State := { s with cidx := s.cidx + n }

/-- `ses <- p` (rule R29). -/
def setSes (p : Phase) (s : State) : State := { s with ses := p }

/-- `ps_active <- b` (rule R28). -/
def setPsActive (b : Bool) (s : State) : State := { s with psActive := b }

/-- `acc <- v` (rule R33). -/
def setAcc (v : Byte) (s : State) : State := { s with acc := v }

/-- `emit(v)`: `rx <- rx ++ [v]` (rule R19, rule R35). -/
def emit (v : Byte) (s : State) : State := { s with rx := s.rx ++ [v] }

/-! ## Faults -/

/-- Fault entry, the one operation of every fault: the three fault registers are written, nothing else (rule R222). -/
def takeFault (code : BitVec 4) (idx word : BitVec 32) (s : State) : State :=
  { s with faultCode := code, faultIdx := idx, faultWord := word }

/-- The word at a position of the stream; 0 past its end. -/
def wordAt (s : State) (k : Nat) : Word := s.stream.getD k 0

/-- `raise Fault(c)` by the command at `cidx`: FAULT_IDX is `cidx` and FAULT_WORD the command's first word (rule R222,
rule R39). Log entries 8 and 15. -/
def raise (c : FaultCause) (s : State) : State :=
  takeFault (causeCode c) (BitVec.ofNat 32 s.cidx) (wordAt s s.cidx) s

/-- `raise Fault(c)` at the end of the stream: FAULT_IDX is the stream length and FAULT_WORD 0 (rule R219, rule R220). -/
def raiseAtEnd (c : FaultCause) (s : State) : State :=
  takeFault (causeCode c) (BitVec.ofNat 32 s.stream.length) 0 s

/-- The end-of-stream check (rule R245): an open session, else an active pin session, else the run is complete and nothing
changes (log entry 7). -/
def endOfStream (s : State) : State :=
  if s.ses ≠ .closed then raiseAtEnd .sessionLeftOpen s
  else if s.psActive then raiseAtEnd .pinSessionLeftActive s
  else s

/-! ## The wire -/

/-- `Pulse()` (rule R160). -/
def pulse (s : State) : State :=
  delay Config.tPulseUs (pinWrite .clk .low (delay Config.tPulseUs (pinWrite .clk .high s)))

/-- `for i in 0..8` (rule R17): the body at 0, 1, ..., 7 in that order. -/
def forBits (body : Nat → State → State) (s : State) : State :=
  (List.range 8).foldl (fun t i => body i t) s

/-- One bit of SEND: bit `i` on DIO, then a pulse (rule R161). -/
def transmitBit (v : Byte) (i : Nat) (s : State) : State := pulse (pinWrite .dio (lvl (v.getLsbD i)) s)

/-- `SENDBYTE(v)`, the event body of SEND (rule R161, rule R190). -/
def transmitByte (v : Byte) (s : State) : State := forBits (transmitBit v) (pinDir .dio .output s)

/-- The bytes of a payload, in order (rule R190). -/
def transmitBytes (data : List Byte) (s : State) : State := data.foldl (fun t d => transmitByte d t) s

/-- One bit of RECV: `l <- PinRead(DIO); acc[i] <- bit(l)`, then a pulse (rule R162). -/
def receiveBit (i : Nat) (s : State) : State :=
  match pinRead .dio s with
  | (l, t) => pulse (setAcc (setBit t.acc i (bitOf l)) t)

/-- The bits of one received byte, into a cleared accumulator (rule R162). -/
def receiveBits (s : State) : State := forBits receiveBit (setAcc 0 (pinDir .dio .input s))

/-- `RECVBYTE()`, the event body of RECV: the bits, then `emit(acc)` (rule R162, rule R191). -/
def receiveByte (s : State) : State := emit (receiveBits s).acc (receiveBits s)

/-- `for j in 0..n: RECVBYTE()` (rule R191). -/
def receiveBytes : Nat → State → State
  | 0, s => s
  | n + 1, s => receiveBytes n (receiveByte s)

/-- How every session closes: `PinWrite(CE, Low); PinDir(DIO, In)` (rule R141). -/
def closeSession (s : State) : State := setSes .closed (pinDir .dio .input (pinWrite .ce .low s))

/-! ## Fetching a command -/

/-- What the block finds to do. -/
inductive Fetched where
  /-- A fault is recorded: nothing is executed (rule R223). -/
  | stopped
  /-- The command at `cidx`. -/
  | command (i : Instr)
  /-- No command: `Fault(1)` or `Fault(2)` (rule R211, rule R212). -/
  | bad (c : FaultCause)
  /-- `cidx` is the length of the stream (rule R245). -/
  | ended
  /-- `cidx` lies past the end of the stream. -/
  | outside
  /-- The stream has 2^32 words or more (rule R16). -/
  | tooLong
  deriving DecidableEq, Repr

/-- The command decoded at `cidx`, or the fault its words raise. -/
def fetchCommand (s : State) : Fetched :=
  match decodeAt s.stream s.cidx with
  | .command i _ => .command i
  | .illegal => .bad .illegalCommand
  | .malformed => .bad .malformedPayload
  | .endOfStream => .ended

/-- What the block does next (rule R16, rule R223, rule R245). -/
def fetch (s : State) : Fetched :=
  if 4294967296 ≤ s.stream.length then .tooLong
  else if isFaulted s then .stopped
  else if s.cidx < s.stream.length then fetchCommand s
  else if s.cidx = s.stream.length then .ended
  else .outside

/-! ## The host's moves (rule R246) -/

/-- The host supplies the command stream, before reset is released. -/
def loadStream (ws : List Word) (s : State) : State := { s with stream := ws }

/-- The host applies reset: every piece of state at its reset value (rule R240); the stream the host supplied and the
environment's draws are not the block's and stay, the draws of the new run being counted from here (log entries 3
and 18). -/
def applyReset (s : State) : State :=
  { State.reset with stream := s.stream, draws := s.draws, drawCount := s.drawCount, drawBase := s.drawCount }

/-- `s` with the words `ws` at the fetch position, nothing after them, and no fault recorded. -/
def placeWords (ws : List Word) (s : State) : State :=
  { s with
    stream := (List.range s.cidx).map (wordAt s) ++ ws, faultCode := 0, faultIdx := 0, faultWord := 0 }

end Sys2Proof.Machine
end

