-- ==== Sys2Proof/Machine/Framing.lean ====
section
/-! DEFINITION. Chip-enable session framing: CEB and CEE (spec/41_session_framing.md). -/

namespace Sys2Proof.Machine

/-- CEB (rule R140). -/
def execCeb (s : State) : Host.Outcome State Fault Refusal :=
  if !s.psActive then .next (raise .pinsNotReady s)
  else if s.ses ≠ .closed then .next (raise .sessionAlreadyOpen s)
  else .next (advance 1 (setSes .openEmpty (pinWrite .ce .high s)))

/-- CEE (rule R141). -/
def execCee (s : State) : Host.Outcome State Fault Refusal :=
  if s.ses = .closed then .next (raise .sessionNotOpen s)
  else if s.ses = .openEmpty then .next (raise .commandByteMissing s)
  else .next (advance 1 (closeSession s))

end Sys2Proof.Machine
end

