-- ==== Sys2Proof/Machine/PinSession.lean ====
section
/-! DEFINITION. The pin session: PSB and PSE (spec/40_pin_session.md). -/

namespace Sys2Proof.Machine

/-- The pin calls of PSB (rule R120). -/
def configurePins (s : State) : State :=
  pinDir .dio .input
    (pinDir .clk .output (pinWrite .clk .low (pinDir .ce .output (pinWrite .ce .low s))))

/-- PSB (rule R120). -/
def execPsb (s : State) : Host.Outcome State Fault Refusal :=
  if s.psActive then .next (raise .pinSessionMisuse s)
  else .next (advance 1 (setPsActive true (configurePins s)))

/-- The pin calls of PSE (rule R121). -/
def idlePins (s : State) : State := pinDir .dio .input (pinWrite .clk .low (pinWrite .ce .low s))

/-- PSE (rule R121). -/
def execPse (s : State) : Host.Outcome State Fault Refusal :=
  if !s.psActive then .next (raise .pinSessionMisuse s)
  else if s.ses ≠ .closed then .next (raise .pinSessionMisuse s)
  else .next (advance 1 (setPsActive false (idlePins s)))

end Sys2Proof.Machine
end

