-- ==== Sys2Proof/Machine/Transaction.lean ====
section
/-! DEFINITION. One-session transactions: XFW and XFR (spec/43_transactions.md). -/

namespace Sys2Proof.Machine

/-- XFW a, data (rule R190); the payload was checked by the decoder. -/
def execXfw (a : Byte) (data : List Byte) (s : State) : Host.Outcome State Fault Refusal :=
  if !s.psActive then .next (raise .pinsNotReady s)
  else if s.ses ≠ .closed then .next (raise .sessionAlreadyOpen s)
  else
    .next (advance (1 + data.length)
      (closeSession (transmitBytes data (transmitByte a (pinWrite .ce .high s)))))

/-- XFR a, n (rule R191). -/
def execXfr (a : Byte) (n : BitVec 8) (s : State) : Host.Outcome State Fault Refusal :=
  if !s.psActive then .next (raise .pinsNotReady s)
  else if s.ses ≠ .closed then .next (raise .sessionAlreadyOpen s)
  else
    .next (advance 1
      (closeSession (receiveBytes n.toNat (pinDir .dio .input (transmitByte a (pinWrite .ce .high s))))))

end Sys2Proof.Machine
end

