-- ==== Sys2Proof/Machine/Transfer.lean ====
section
/-! DEFINITION. Byte transfer: SEND and RECV (spec/42_byte_transfer.md). -/

namespace Sys2Proof.Machine

/-- The phase after a SEND: CMD_SENT from OPEN_EMPTY, else WRITING (rule R161). -/
def phaseAfterSend (p : Phase) : Phase := if p = .openEmpty then .cmdSent else .writing

/-- SEND v (rule R161). -/
def execSend (v : Byte) (s : State) : Host.Outcome State Fault Refusal :=
  if s.ses = .closed then .next (raise .sessionNotOpen s)
  else if s.ses = .reading then .next (raise .mixedDirection s)
  else .next (advance 1 (setSes (phaseAfterSend s.ses) (transmitByte v s)))

/-- RECV (rule R162). -/
def execRecv (s : State) : Host.Outcome State Fault Refusal :=
  if s.ses = .closed then .next (raise .sessionNotOpen s)
  else if s.ses = .openEmpty then .next (raise .commandByteMissing s)
  else if s.ses = .writing then .next (raise .mixedDirection s)
  else .next (advance 1 (setSes .reading (receiveByte s)))

end Sys2Proof.Machine
end

