-- ==== Sys2Proof/Machine/Dispatch.lean ====
section
/-! DEFINITION. One arm per command of the opcode table. -/

namespace Sys2Proof.Machine

/-- The meaning of a decoded command. -/
def exec (i : Instr) (s : State) : Host.Outcome State Fault Refusal :=
  match i with
  | .psb => Sys2Proof.Machine.execPsb s
  | .pse => Sys2Proof.Machine.execPse s
  | .ceb => Sys2Proof.Machine.execCeb s
  | .cee => Sys2Proof.Machine.execCee s
  | .send v => Sys2Proof.Machine.execSend v s
  | .recv => Sys2Proof.Machine.execRecv s
  | .xfw a data => Sys2Proof.Machine.execXfw a data s
  | .xfr a n => Sys2Proof.Machine.execXfr a n s

end Sys2Proof.Machine
end

