-- ==== Sys2Proof/Machine/Step.lean ====
section
/-! DEFINITION. One step of the block, and placing an instruction where the next step fetches it. -/

namespace Sys2Proof.Machine

/-- One step: the command at `cidx` is executed; a bad word or a stream that ends badly raises its fault, as a next state;
a block that is stopped by a fault, and one whose run is complete, executes nothing and stays as it is (rule R223,
rule R225, rule R245; log entries 6 and 7). -/
def step (s : State) : Host.Outcome State Fault Refusal :=
  match fetch s with
  | .stopped => .next s
  | .command i => exec i s
  | .bad c => .next (raise c s)
  | .ended => .next (endOfStream s)
  | .outside => .fault .fetchOutsideStream
  | .tooLong => .refused .streamTooLong

/-- `s` with the instruction whose table bits are `w` placed at `cidx`, so that the next step runs it. It stands for the
host's loading of a stream (log entries 2 and 13). -/
def State.withFetchWord (s : State) (nbits w : Nat) : State := placeWords (tableWords nbits w) s

end Sys2Proof.Machine
end

