-- ==== Sys2Proof/Machine/Assembler.lean ====
section
/-! DEFINITION. The assembler lines of rule R92 and the pseudo-instructions of rule R93, with operands as numbers; the text
form of rule R92; and the informative command bytes of rule R94 to rule R97, on which no rule of the block depends. -/

namespace Sys2Proof.Machine

/-- One line of assembler (rule R92, rule R93). -/
inductive AsmLine where
  | psb
  | pse
  | ceb
  | cee
  | send (v : Nat)
  | recv
  | xfw (a : Nat) (data : List Nat)
  | xfr (a n : Nat)
  /-- `.word w`: the raw word. -/
  | word (w : Nat)
  /-- `WR1 a, v`. -/
  | wr1 (a v : Nat)
  /-- `RD1 a`. -/
  | rd1 (a : Nat)
  deriving DecidableEq, Repr

/-- "Every operand must fit its field" (rule R92): a byte operand. -/
def asByte (v : Nat) : Option Byte := if v < 256 then some (BitVec.ofNat 8 v) else none

/-- The words of `XFW a, data`; refused where an operand does not fit or there are more than 255 items (rule R92). -/
def assembleXfw (a : Nat) (data : List Nat) : Option (List Word) :=
  match asByte a, data.mapM asByte with
  | some x, some bytes => if bytes.length ≤ 255 then some (encode (.xfw x bytes)) else none
  | some _, none => none
  | none, _ => none

/-- The words of `XFR a, n` (rule R92). -/
def assembleXfr (a n : Nat) : Option (List Word) :=
  match asByte a, asByte n with
  | some x, some m => some (encode (.xfr x m))
  | some _, none => none
  | none, _ => none

/-- The words of one line; `none` where an operand does not fit its field: "an assembler refuses one that does not"
(rule R92). -/
def assembleLine : AsmLine → Option (List Word)
  | .psb => some (encode .psb)
  | .pse => some (encode .pse)
  | .ceb => some (encode .ceb)
  | .cee => some (encode .cee)
  | .send v => (asByte v).map fun b => encode (.send b)
  | .recv => some (encode .recv)
  | .xfw a data => assembleXfw a data
  | .xfr a n => assembleXfr a n
  | .word w => if w < 4294967296 then some [BitVec.ofNat 32 w] else none
  | .wr1 a v => assembleXfw a [v]
  | .rd1 a => assembleXfr a 1

/-! ## The text form (rule R92). The blanks are a DESIGN CHOICE (log entry 19): space, tab and carriage return, between any
two tokens; capitals as the rule writes them. Text is a list of characters. -/

/-- The pieces of a line. -/
inductive Token where
  | text (cs : List Char)
  | comma
  | openBrace
  | closeBrace
  deriving DecidableEq, Repr

/-- Blank characters: space, tab, carriage return. -/
def isBlank (c : Char) : Bool := c.toNat == 32 || c.toNat == 9 || c.toNat == 13

/-- A token for the characters read so far (the last one first), if there are any. -/
def flushText (cur : List Char) (rest : List Token) : List Token :=
  if cur = [] then rest else .text cur.reverse :: rest

/-- The tokens of a line up to its comment: "`;` starts a comment" (rule R92). 123 and 125 are the brace characters. -/
def tokenise : List Char → List Char → List Token
  | [], cur => flushText cur []
  | c :: cs, cur =>
    if c = ';' then flushText cur []
    else if isBlank c then flushText cur (tokenise cs [])
    else if c = ',' then flushText cur (.comma :: tokenise cs [])
    else if c.toNat = 123 then flushText cur (.openBrace :: tokenise cs [])
    else if c.toNat = 125 then flushText cur (.closeBrace :: tokenise cs [])
    else tokenise cs (c :: cur)

/-- The value of a digit in a base up to 16. -/
def digitValue (base : Nat) (c : Char) : Option Nat :=
  let v := if 48 ≤ c.toNat ∧ c.toNat ≤ 57 then c.toNat - 48
    else if 65 ≤ c.toNat ∧ c.toNat ≤ 70 then c.toNat - 55
    else if 97 ≤ c.toNat ∧ c.toNat ≤ 102 then c.toNat - 87
    else 16
  if v < base then some v else none

/-- The value of a list of digits, most significant first, `acc` being the value of those before them. -/
def digitsValue (base : Nat) : Nat → List Char → Option Nat
  | acc, [] => some acc
  | acc, c :: cs =>
    match digitValue base c with
    | some d => digitsValue base (acc * base + d) cs
    | none => none

/-- "Numbers in decimal or `0x` hexadecimal" (rule R92). -/
def numeral : List Char → Option Nat
  | [] => none
  | ['0', 'x'] => none
  | '0' :: 'x' :: cs => digitsValue 16 0 cs
  | c :: cs => digitsValue 10 0 (c :: cs)

/-- The items of a brace list after its first, up to the closing brace that ends the line. -/
def moreItems : List Token → Option (List Nat)
  | [.closeBrace] => some []
  | .comma :: .text d :: ts =>
    match numeral d, moreItems ts with
    | some n, some ns => some (n :: ns)
    | some _, none => none
    | none, _ => none
  | _ => none

/-- The items of a brace list, its opening brace read. -/
def braceItems : List Token → Option (List Nat)
  | [.closeBrace] => some []
  | .text d :: ts => moreItems (.comma :: .text d :: ts)
  | _ => none

/-- A line of one mnemonic without operands. -/
def parsePlain (m : List Char) : Option AsmLine :=
  if m = ['P', 'S', 'B'] then some .psb
  else if m = ['P', 'S', 'E'] then some .pse
  else if m = ['C', 'E', 'B'] then some .ceb
  else if m = ['C', 'E', 'E'] then some .cee
  else if m = ['R', 'E', 'C', 'V'] then some .recv
  else none

/-- A line of a mnemonic and one number. -/
def parseOne (m : List Char) (x : Nat) : Option AsmLine :=
  if m = ['S', 'E', 'N', 'D'] then some (.send x)
  else if m = ['.', 'w', 'o', 'r', 'd'] then some (.word x)
  else if m = ['R', 'D', '1'] then some (.rd1 x)
  else none

/-- A line of a mnemonic and two numbers. -/
def parseTwo (m : List Char) (x y : Nat) : Option AsmLine :=
  if m = ['X', 'F', 'R'] then some (.xfr x y)
  else if m = ['W', 'R', '1'] then some (.wr1 x y)
  else none

/-- The line that the tokens write: none for an empty line, and a refusal (`none`) for what rule R92 and rule R93 do not
give a syntax to. -/
def parseTokens : List Token → Option (List AsmLine)
  | [] => some []
  | [.text m] => (parsePlain m).map fun l => [l]
  | [.text m, .text x] => ((numeral x).bind (parseOne m)).map fun l => [l]
  | [.text m, .text x, .comma, .text y] =>
    ((numeral x).bind fun a => (numeral y).bind (parseTwo m a)).map fun l => [l]
  | .text m :: .text x :: .comma :: .openBrace :: ts =>
    if m = ['X', 'F', 'W'] then (numeral x).bind fun a => (braceItems ts).map fun ds => [.xfw a ds] else none
  | _ => none

/-- The words of one line of text; no words for a line that is empty or all comment. -/
def assembleTextLine (cs : List Char) : Option (List Word) :=
  match parseTokens (tokenise cs []) with
  | some [] => some []
  | some (l :: _) => assembleLine l
  | none => none

/-- The lines of a text, "one command per line" (rule R92); `cur` holds the line read so far, its last character first. -/
def textLines : List Char → List Char → List (List Char)
  | [], cur => [cur.reverse]
  | c :: cs, cur => if c.toNat = 10 then cur.reverse :: textLines cs [] else textLines cs (c :: cur)

/-- The words of a list of lines, in order; refused where one of them is. -/
def assembleLines : List (List Char) → Option (List Word)
  | [] => some []
  | l :: ls =>
    match assembleTextLine l, assembleLines ls with
    | some ws, some vs => some (ws ++ vs)
    | some _, none => none
    | none, _ => none

/-- The command stream a text assembles to (rule R92, rule R93). -/
def assembleText (cs : List Char) : Option (List Word) := assembleLines (textLines cs [])

/-! ## The command byte (rule R94 to rule R98), informative -/

/-- "The read/write selector is bit 0": 1 reads, 0 writes (rule R96, informative; the block never inspects the byte). -/
def readSelector (a : Byte) : Bool := a.getLsbD 0
/-- Bit 7, set in every constant of the source (rule R95, informative; the block does not check it). -/
def familyBit (a : Byte) : Bool := a.getLsbD 7
/-- Scratchpad RAM byte n, write: 0xC0 + 2n, n = 0..30 (rule R97, informative). -/
def ramWriteByte (n : Fin 31) : Byte := BitVec.ofNat 8 (0xC0 + 2 * n.val)
/-- Scratchpad RAM byte n, read: 0xC1 + 2n, n = 0..30 (rule R97, rule R98, informative). -/
def ramReadByte (n : Fin 31) : Byte := BitVec.ofNat 8 (0xC1 + 2 * n.val)
/-- RAM burst write (rule R97, informative). -/
def ramBurstWriteByte : Byte := 0xFE
/-- RAM burst read (rule R97, informative). -/
def ramBurstReadByte : Byte := 0xFF
/-- Clock burst read (rule R97, informative). -/
def clockBurstReadByte : Byte := 0xBF

/-- The clock fields of rule R97 with their write command bytes; informative. 0x84 to 0x8E are from general knowledge of the
DS1302, as the rule says. -/
def clockFieldWriteBytes : List (String × Byte) :=
  [ ("clock-halt/seconds", 0x80),
    ("minutes", 0x82),
    ("hour + 24h flag", 0x84),
    ("date", 0x86),
    ("month", 0x88),
    ("day-of-week", 0x8A),
    ("year", 0x8C),
    ("write-protect", 0x8E) ]

end Sys2Proof.Machine
end

