-- ==== Sys2Proof/Machine/Observe.lean ====
section
/-! DEFINITION. What the outside sees: pads and ports (rule R24, rule R44), the pins replayed from a trace, the pin-level
waveform (rule R47), and the GpioPort calls behind the events (rule R43). -/

namespace Sys2Proof.Machine

/-- The level on a pad as far as the block fixes it: a level, or any value (rule R24). -/
inductive PadView where
  | any
  | level (l : Level)
  deriving DecidableEq, Repr

/-- `pad(r)` where no other agent drives it (rule R24): the latch while the direction is Out, any value where the direction
is In or Unknown or the latch is Unknown. Log entry 10. -/
def padView (p : Pins) (r : Role) : PadView :=
  match getDir p r, getLat p r with
  | .known .output, .known l => .level l
  | .known .output, .unknown => .any
  | .known .input, _ => .any
  | .unknown, _ => .any

/-- `l` is a level the pad of `r` may show, where `other` says whether another agent drives it too: under contention any
level (rule R24, rule R251). -/
def padMay (p : Pins) (r : Role) (other : Bool) (l : Level) : Bool :=
  match padView p r with
  | .any => true
  | .level m => other || decide (l = m)

/-- The ports the block drives (rule R44); `DIO_I` is the level each `PinRead(DIO)` draws. -/
structure Ports where
  clkO : PadView
  ceO : PadView
  dioO : LatState
  dioOe : Bool
  deriving DecidableEq, Repr

/-- `CLK_O`, `CE_O`, `DIO_O`, `DIO_OE` (rule R44). -/
def ports (p : Pins) : Ports where
  clkO := padView p .clk
  ceO := padView p .ce
  dioO := p.latDio
  dioOe := decide (p.dirDio = .known .output)

/-- What an event does to the pins (rule R22, rule R23): a read and a delay leave them as they are. -/
def applyEvent (p : Pins) (e : Event) : Pins :=
  match e with
  | .dir r d => setDir p r (.known d)
  | .wr r l => setLat p r (.known l)
  | .rd _ _ => p
  | .dly _ => p

/-- The pins after a list of events. -/
def replay (p : Pins) (es : List Event) : Pins := es.foldl applyEvent p

/-- The tuple of the waveform (rule R47). -/
structure Wave where
  clk : PadView
  ce : PadView
  dirDio : DirState
  latDio : LatState
  deriving DecidableEq, Repr

/-- `(pad(CLK), pad(CE), dir[DIO], lat[DIO])` (rule R47). -/
def waveOf (p : Pins) : Wave where
  clk := padView p .clk
  ce := padView p .ce
  dirDio := p.dirDio
  latDio := p.latDio

/-- The waveform of a list of events from given pins: the tuple after each event that changes it (rule R47; log
entry 14). -/
def waveform (p : Pins) : List Event → List Wave
  | [] => []
  | e :: es =>
    if waveOf (applyEvent p e) = waveOf p then waveform (applyEvent p e) es
    else waveOf (applyEvent p e) :: waveform (applyEvent p e) es

/-- One thing the peripheral can tell apart (rule R47). -/
inductive Seen where
  | wave (w : Wave)
  | read (l : Level)
  deriving DecidableEq, Repr

/-- The waveform with each `Rd` level at its place: two traces with the same one "are indistinguishable to the peripheral"
(rule R47). -/
def peripheralView (p : Pins) : List Event → List Seen
  | [] => []
  | .rd _ l :: es => .read l :: peripheralView p es
  | .dir r d :: es =>
    if waveOf (applyEvent p (.dir r d)) = waveOf p then peripheralView (applyEvent p (.dir r d)) es
    else .wave (waveOf (applyEvent p (.dir r d))) :: peripheralView (applyEvent p (.dir r d)) es
  | .wr r l :: es =>
    if waveOf (applyEvent p (.wr r l)) = waveOf p then peripheralView (applyEvent p (.wr r l)) es
    else .wave (waveOf (applyEvent p (.wr r l))) :: peripheralView (applyEvent p (.wr r l)) es
  | .dly _ :: es => peripheralView p es

/-- A call of the GpioPort interface, on a physical pin (rule R43). -/
inductive GpioCall where
  /-- `set_direction` / `configure_direction`. -/
  | setDirection (pin : Nat) (d : Direction)
  /-- `write` / `write_level`. -/
  | write (pin : Nat) (l : Level)
  /-- `read` / `read_level`, with the level it returned. -/
  | read (pin : Nat) (l : Level)
  /-- `delay_us` / `sleep_microseconds`. -/
  | delayUs (t : Nat)
  deriving DecidableEq, Repr

/-- The call that an event records (rule R18, rule R43, rule R45). -/
def gpioCall : Event → GpioCall
  | .dir r d => .setDirection (Config.pinId r) d
  | .wr r l => .write (Config.pinId r) l
  | .rd r l => .read (Config.pinId r) l
  | .dly t => .delayUs t

end Sys2Proof.Machine
end

