-- ==== Sys2Proof/Safety.lean ====
section
/-! DEFINITION. The terms claims use: the ends of a run, the idle state, the event lists of the rules, the discipline of a
trace, and the invariant of the machine between two commands. -/

namespace Sys2Proof.Safety

open Sys2Proof.Machine

/-! ## Ends of a run -/

/-- The run has ended in a fault (rule R245 a). -/
def Faulted (s : State) : Prop := s.faultCode ≠ 0

/-- The run is complete: the stream is used up with no fault, no session and no pin session (rule R245 b). -/
def Complete (s : State) : Prop :=
  s.faultCode = 0 ∧ s.cidx = s.stream.length ∧ s.ses = .closed ∧ s.psActive = false

/-- The stream is one the model admits (rule R16). -/
def StreamFits (s : State) : Prop := s.stream.length < 4294967296

/-- `s` with the fault registers rule R222 writes, and nothing else changed. -/
def withFault (code : BitVec 4) (s : State) : State :=
  { s with faultCode := code, faultIdx := BitVec.ofNat 32 s.cidx, faultWord := s.stream.getD s.cidx 0 }

/-! ## Pins -/

/-- The idle state (rule R27). -/
def Idle (p : Pins) : Prop :=
  p.dirDio = .known .input ∧ p.dirClk = .known .output ∧ p.latClk = .known .low ∧
    p.dirCe = .known .output ∧ p.latCe = .known .low

/-- `dir[DIO]` between two commands of an active pin session, by the phase (rule R124). -/
def muxDirection : Phase → Direction
  | .closed => .input
  | .openEmpty => .input
  | .cmdSent => .output
  | .writing => .output
  | .reading => .input

/-! ## Event lists of the rules -/

/-- The four events of `Pulse()` (rule R160). -/
def pulseEvents : List Event :=
  [.wr .clk .high, .dly Config.tPulseUs, .wr .clk .low, .dly Config.tPulseUs]

/-- The 41 events of `SEND v` (rule R161). -/
def sendEvents (v : Byte) : List Event :=
  .dir .dio .output :: (List.range 8).flatMap fun i => .wr .dio (lvl (v.getLsbD i)) :: pulseEvents

/-- The 41 events of `RECV` with the draws `l 0, ..., l 7` (rule R162). -/
def recvEvents (l : Nat → Level) : List Event :=
  .dir .dio .input :: (List.range 8).flatMap fun i => .rd .dio (l i) :: pulseEvents

/-- The two events that close a session (rule R141). -/
def closeEvents : List Event := [.wr .ce .low, .dir .dio .input]

/-- The events of `XFW a, data` (rule R190). -/
def xfwEvents (a : Byte) (data : List Byte) : List Event :=
  .wr .ce .high :: (sendEvents a ++ data.flatMap sendEvents ++ closeEvents)

/-- The events of `n` RECVs whose draws are `l 0, l 1, ...` (rule R191). -/
def recvsEvents (l : Nat → Level) (n : Nat) : List Event :=
  (List.range n).flatMap fun j => recvEvents fun i => l (8 * j + i)

/-- The events of `XFR a, n` (rule R191). -/
def xfrEvents (a : Byte) (l : Nat → Level) (n : Nat) : List Event :=
  .wr .ce .high :: (sendEvents a ++ .dir .dio .input :: recvsEvents l n ++ closeEvents)

/-- "The byte emitted is sum over i of bit(l_i)·2^i" (rule R162). -/
def byteOf (l : Nat → Level) : Byte :=
  BitVec.ofNat 8 ((List.range 8).map fun i => (bitOf (l i)).toNat * 2 ^ i).sum

/-- The bytes of `n` RECVs, in receipt order (rule R64, rule R191). -/
def bytesOf (l : Nat → Level) (n : Nat) : List Byte :=
  (List.range n).map fun j => byteOf fun i => l (8 * j + i)

/-! ## Reading a list of events -/

/-- An event that is not a `Dly`. -/
def notDelay : Event → Bool
  | .dir _ _ => true
  | .wr _ _ => true
  | .rd _ _ => true
  | .dly _ => false

/-- The level of a `Wr(CLK, .)`. -/
def clkWrite : Event → Option Level
  | .wr .clk l => some l
  | .wr .ce _ => none
  | .wr .dio _ => none
  | .dir _ _ => none
  | .rd _ _ => none
  | .dly _ => none

/-- The level of a `Wr(CE, .)`. -/
def ceWrite : Event → Option Level
  | .wr .ce l => some l
  | .wr .clk _ => none
  | .wr .dio _ => none
  | .dir _ _ => none
  | .rd _ _ => none
  | .dly _ => none

/-- The level of a `Wr(DIO, .)`. -/
def dioWrite : Event → Option Level
  | .wr .dio l => some l
  | .wr .clk _ => none
  | .wr .ce _ => none
  | .dir _ _ => none
  | .rd _ _ => none
  | .dly _ => none

/-- The level of a `Rd(., .)`. -/
def rdLevel : Event → Option Level
  | .rd _ l => some l
  | .dir _ _ => none
  | .wr _ _ => none
  | .dly _ => none

/-- A write of DIO or CLK. -/
def dioOrClkWrite : Event → Bool
  | .wr .dio _ => true
  | .wr .clk _ => true
  | .wr .ce _ => false
  | .dir _ _ => false
  | .rd _ _ => false
  | .dly _ => false

/-- The least time in microseconds a list of events takes: the sum of its `Dly` events (rule R253). -/
def minTime : List Event → Nat
  | [] => 0
  | .dly t :: es => t + minTime es
  | .dir _ _ :: es => minTime es
  | .wr _ _ :: es => minTime es
  | .rd _ _ :: es => minTime es

/-- What a peripheral that samples at each CLK write of the given level sees of DIO while the block drives it, CE High
(rule R165): High is the rising edge, Low the falling one. -/
def sampledAt (edge : Level) (p : Pins) : List Event → List LatState
  | [] => []
  | e :: es =>
    if clkWrite e = some edge ∧ p.dirDio = .known .output ∧ p.latCe = .known .high then
      p.latDio :: sampledAt edge (applyEvent p e) es
    else sampledAt edge (applyEvent p e) es

/-! ## Commands one by one -/

/-- The events a command appended: what stands in the trace after it and not before. -/
def newEvents (s t : State) : List Event := t.trace.drop s.trace.length

/-- `i` runs at `s` without a fault and leaves `t`. -/
def Completes (i : Instr) (s t : State) : Prop := exec i s = .next t ∧ s.faultCode = 0 ∧ t.faultCode = 0

/-- Commands run one after another, each from the state the one before left; `none` where one of them faults. -/
def runAll : List Instr → State → Option State
  | [], s => some s
  | i :: is, s =>
    match exec i s with
    | .next t => if t.faultCode = 0 then runAll is t else none
    | .fault _ => none
    | .refused _ => none

/-- How many bytes a command transfers on the wire, the command byte of a transaction included. -/
def wireBytes : Instr → Nat
  | .psb => 0
  | .pse => 0
  | .ceb => 0
  | .cee => 0
  | .send _ => 1
  | .recv => 1
  | .xfw _ data => data.length + 1
  | .xfr _ n => n.toNat + 1

/-- How many bytes a command appends to the RX stream (rule R35). -/
def receivedBytes : Instr → Nat
  | .psb => 0
  | .pse => 0
  | .ceb => 0
  | .cee => 0
  | .send _ => 0
  | .recv => 1
  | .xfw _ _ => 0
  | .xfr _ n => n.toNat

/-- The levels a command writes to CE, in order (rule R142). -/
def ceWrites : Instr → List Level
  | .psb => [.low]
  | .pse => [.low]
  | .ceb => [.high]
  | .cee => [.low]
  | .send _ => []
  | .recv => []
  | .xfw _ _ => [.high, .low]
  | .xfr _ _ => [.high, .low]

/-- The command word is illegal: an unassigned `op` (rule R86), a non-zero `rsv` (rule R87) or a non-zero unused field
(rule R88). -/
def IllegalWord (w : Word) : Prop :=
  w.toNat / 2 ^ 28 = 0 ∨ 9 ≤ w.toNat / 2 ^ 28 ∨ w.toNat / 2 ^ 16 % 2 ^ 12 ≠ 0 ∨
    (w.toNat / 2 ^ 28 ∈ [1, 2, 3, 4, 6] ∧ (w.toNat / 2 ^ 8 % 2 ^ 8 ≠ 0 ∨ w.toNat % 2 ^ 8 ≠ 0)) ∨
    (w.toNat / 2 ^ 28 = 5 ∧ w.toNat / 2 ^ 8 % 2 ^ 8 ≠ 0)

/-- The words from `k` on are an XFW whose payload is malformed (rule R89). -/
def MalformedAt (S : List Word) (k : Nat) : Prop :=
  ¬ IllegalWord (S.getD k 0) ∧ (S.getD k 0).toNat / 2 ^ 28 = 7 ∧
    (S.length ≤ k + (S.getD k 0).toNat / 2 ^ 8 % 2 ^ 8 ∨
      ∃ j, 1 ≤ j ∧ j ≤ (S.getD k 0).toNat / 2 ^ 8 % 2 ^ 8 ∧ (S.getD (k + j) 0).toNat / 2 ^ 8 ≠ 0)

/-- The conditions of the fault codes 3 to 8 for a command, in the order of rule R221 (rule R213 to rule R218). -/
def faultConditions (i : Instr) (s : State) : List (BitVec 4 × Bool) :=
  let begins := match i with
    | .psb => false | .pse => false | .ceb => true | .cee => false | .send _ => false | .recv => false
    | .xfw _ _ => true | .xfr _ _ => true
  let needsSession := match i with
    | .psb => false | .pse => false | .ceb => false | .cee => true | .send _ => true | .recv => true
    | .xfw _ _ => false | .xfr _ _ => false
  let sends := match i with
    | .psb => false | .pse => false | .ceb => false | .cee => false | .send _ => true | .recv => false
    | .xfw _ _ => false | .xfr _ _ => false
  [ (3, (decide (i = .psb) && s.psActive) || (decide (i = .pse) && (!s.psActive || decide (s.ses ≠ .closed)))),
    (4, begins && !s.psActive),
    (5, begins && decide (s.ses ≠ .closed)),
    (6, needsSession && decide (s.ses = .closed)),
    (7, (decide (i = .cee) || decide (i = .recv)) && decide (s.ses = .openEmpty)),
    (8, (sends && decide (s.ses = .reading)) || (decide (i = .recv) && decide (s.ses = .writing))) ]

/-- An entry of the phase table of rule R144: the phase after, or the fault code. -/
inductive GrammarEntry where
  | to (p : Phase)
  | fault (code : BitVec 4)
  deriving DecidableEq, Repr

/-- The column CEB of the table of rule R144. -/
def grammarCeb : Phase → GrammarEntry
  | .closed => .to .openEmpty
  | .openEmpty => .fault 5
  | .cmdSent => .fault 5
  | .writing => .fault 5
  | .reading => .fault 5

/-- The column CEE of the table of rule R144. -/
def grammarCee : Phase → GrammarEntry
  | .closed => .fault 6
  | .openEmpty => .fault 7
  | .cmdSent => .to .closed
  | .writing => .to .closed
  | .reading => .to .closed

/-- The column SEND of the table of rule R144. -/
def grammarSend : Phase → GrammarEntry
  | .closed => .fault 6
  | .openEmpty => .to .cmdSent
  | .cmdSent => .to .writing
  | .writing => .to .writing
  | .reading => .fault 8

/-- The column RECV of the table of rule R144. -/
def grammarRecv : Phase → GrammarEntry
  | .closed => .fault 6
  | .openEmpty => .fault 7
  | .cmdSent => .to .reading
  | .writing => .fault 8
  | .reading => .to .reading

/-- The command at `s` does what the entry of the table says. -/
def Follows (g : GrammarEntry) (i : Instr) (s : State) : Prop :=
  match g with
  | .to p => ∃ t, exec i s = .next t ∧ t.ses = p ∧ t.psActive = s.psActive ∧ t.faultCode = s.faultCode
  | .fault code => exec i s = .next (withFault code s)

/-- An outcome with the accumulator of its next state forgotten. -/
def forgetAcc (o : Host.Outcome State Fault Refusal) : Host.Outcome State Fault Refusal :=
  match o with
  | .next t => .next { t with acc := 0 }
  | .fault r => .fault r
  | .refused r => .refused r

/-- The state a run starts in: reset, with the stream the host supplied and the draws the environment will answer first
(rule R246, rule R25). -/
def start (stream : List Word) (draws : List Level) : State :=
  { State.reset with stream := stream, draws := draws }

/-- A state in which a run starts (rule R246): the first one, and what the host's reset makes of any state, a faulted one
included. -/
def RunStart (s : State) : Prop := (∃ stream draws, s = start stream draws) ∨ ∃ r, s = applyReset r

/-- A command that transfers one byte inside a session: SEND or RECV. -/
def isTransfer : Instr → Bool
  | .psb => false
  | .pse => false
  | .ceb => false
  | .cee => false
  | .send _ => true
  | .recv => true
  | .xfw _ _ => false
  | .xfr _ _ => false

/-- The commands of a session's bytes, `cmd data*` or `cmd recv*` (rule R144). -/
def SessionBytes (is : List Instr) : Prop :=
  ∃ cmd, (∃ data : List Byte, is = .send cmd :: data.map Instr.send) ∨ ∃ n, is = .send cmd :: List.replicate n .recv

/-! ## The discipline of a trace -/

/-- The event may stand where the pins are `p`: CLK and CE are only ever Outputs (rule R26); DIO is written only as an
Output and read only as an Input (rule R123), both with CLK Low (rule R248) and CE High (rule R77, rule R250), and its
direction never turns during a pulse; CLK rises only from Low with CE High (rule R164, rule R77); CE rises only from the
idle state (rule R140) and never toggles during a pulse (rule R142); only DIO is read (rule R25); a delay stands only
inside a session (rule R160). -/
def eventAllowed (p : Pins) : Event → Bool
  | .dir .dio _ => decide (p.latClk ≠ .known .high)
  | .dir .clk d => decide (d = .output)
  | .dir .ce d => decide (d = .output)
  | .wr .dio _ =>
    decide (p.dirDio = .known .output ∧ p.latClk = .known .low ∧ p.latCe = .known .high)
  | .wr .clk .high =>
    decide (p.latClk = .known .low ∧ p.latCe = .known .high ∧ p.dirClk = .known .output ∧
      p.dirCe = .known .output)
  | .wr .clk .low => true
  | .wr .ce .high =>
    decide (p.dirDio = .known .input ∧ p.dirClk = .known .output ∧ p.latClk = .known .low ∧
      p.dirCe = .known .output ∧ p.latCe = .known .low)
  | .wr .ce .low => decide (p.latClk ≠ .known .high)
  | .rd .dio _ =>
    decide (p.dirDio = .known .input ∧ p.latClk = .known .low ∧ p.latCe = .known .high)
  | .rd .clk _ => false
  | .rd .ce _ => false
  | .dly _ => decide (p.latCe = .known .high)

/-- Every event of the list may stand where it stands, from the pins `p` on. -/
def disciplined (p : Pins) : List Event → Bool
  | [] => true
  | e :: es => eventAllowed p e && disciplined (applyEvent p e) es

/-! ## The invariant -/

/-- What holds of the block between any two commands. -/
structure Invariant (s : State) : Prop where
  /-- Rule R30. -/
  sessionNeedsPins : s.ses ≠ .closed → s.psActive = true
  /-- Rule R26. -/
  activeOutputs : s.psActive = true → s.pins.dirClk = .known .output ∧ s.pins.dirCe = .known .output
  /-- Rule R31. -/
  closedIdle : s.psActive = true → s.ses = .closed → Idle s.pins
  /-- Rule R32, its first half. -/
  clkLow : s.psActive = true → s.pins.latClk = .known .low
  /-- Rule R32, its second half. -/
  ceHigh : s.pins.latCe = .known .high ↔ s.ses ≠ .closed
  /-- Rule R124. -/
  mux : s.psActive = true → s.pins.dirDio = .known (muxDirection s.ses)
  /-- Rule R241 before the first PSB, rule R121 after a PSE. -/
  inactivePins : s.psActive = false → s.pins = Pins.reset ∨ Idle s.pins
  /-- Rule R36: `cidx` never passes the end of the stream. -/
  cidxInStream : s.cidx ≤ s.stream.length
  /-- Rule R38: FAULT_CODE 11..15 never read. -/
  codeLegal : s.faultCode.toNat ≤ 10
  /-- Rule R39: both read 0 while FAULT_CODE = 0. -/
  faultRegsZero : s.faultCode = 0 → s.faultIdx = 0 ∧ s.faultWord = 0
  /-- Rule R46, rule R49: the trace accounts for every direction and latch. -/
  replayed : replay Pins.reset s.trace = s.pins
  /-- Rule R26, rule R77, rule R123, rule R142, rule R164, rule R248, rule R250: see `eventAllowed`. -/
  traceDisciplined : disciplined Pins.reset s.trace = true
  /-- Rule R35, rule R63: the bytes of rx, LSB first, are the levels read, in order. -/
  received : s.trace.filterMap rdLevel = s.rx.flatMap byteLevels
  /-- Rule R25: one draw per read since reset. -/
  drawn : s.drawBase + (s.trace.filterMap rdLevel).length = s.drawCount

end Sys2Proof.Safety
end

