-- ==== Sys2Proof/Certificates/Slice0/Obligations.lean ====
section
/-! DEFINITION. The statements for the provers. Each docstring names the rule of the spec it formalises. A fault of a command
writes FAULT_WORD as the word of the stream at `cidx`, which is the command's first word in every step; in a state whose
stream does not hold the command there, that word is the model's convention (log entry 15). -/

open Sys2Proof Sys2Proof.Machine Sys2Proof.Safety

/-! ## Encoding -/

/-- Decoding the words of a well-formed command gives it back, whatever words follow, for every operand value (rule R80
to rule R85, rule R92). -/
def Obligations.DecodeOfEncode : Prop :=
  ∀ (i : Instr) (rest : List Word), i.wellFormed = true → decode (encode i ++ rest) = .command i rest

/-- What the decoder reads is well-formed, and the words it read are exactly that command's encoding: no word has two
readings and no bit is dropped (rule R80 to rule R89). -/
def Obligations.EncodeOfDecode : Prop :=
  ∀ (words rest : List Word) (i : Instr),
    decode words = .command i rest → i.wellFormed = true ∧ words = encode i ++ rest

/-- The opcode map (rule R85): the rows a word selects (`w & mask = match`) are none exactly where it is illegal; where
it decodes, the one row of the command's mnemonic, and the command takes its length in words. -/
def Obligations.OpcodeRowsSelect : Prop :=
  ∀ (w : Word) (rest : List Word),
    (opcodeTable.filter (fun r => r.selects w) = [] ↔ decode (w :: rest) = .illegal) ∧
    ∀ (i : Instr) (rest' : List Word), decode (w :: rest) = .command i rest' →
      (opcodeTable.filter (fun r => r.selects w)).map (fun r => r.mnemonic) = [i.mnemonic] ∧
        rest.length + 1 = i.words + rest'.length

/-- Illegal command words (rule R86, rule R87, rule R88) and the fault they raise (rule R211), in any state and before
any other condition. -/
def Obligations.IllegalWordsFault : Prop :=
  (∀ (w : Word) (rest : List Word), decode (w :: rest) = .illegal ↔ IllegalWord w) ∧
  (∀ s : State, StreamFits s → s.faultCode = 0 → s.cidx < s.stream.length →
    IllegalWord (s.stream.getD s.cidx 0) →
    step s = .next { s with
      faultCode := 1, faultIdx := BitVec.ofNat 32 s.cidx, faultWord := s.stream.getD s.cidx 0 }) ∧
  IllegalWord 0

/-- Malformed XFW payloads (rule R89) and the fault they raise (rule R212), in any state and before any other condition.
-/
def Obligations.MalformedPayloadsFault : Prop :=
  (∀ (S : List Word) (k : Nat), k < S.length → (decodeAt S k = .malformed ↔ MalformedAt S k)) ∧
  (∀ s : State, StreamFits s → s.faultCode = 0 → s.cidx < s.stream.length → MalformedAt s.stream s.cidx →
    step s = .next { s with
      faultCode := 2, faultIdx := BitVec.ofNat 32 s.cidx, faultWord := s.stream.getD s.cidx 0 })

/-- A few words written out from rule R92 decode to their commands (sanity). -/
def Obligations.LiteralWordsDecode : Prop :=
  decode [0x10000000] = .command .psb [] ∧ decode [0x20000000] = .command .pse [] ∧
    decode [0x30000000] = .command .ceb [] ∧ decode [0x40000000] = .command .cee [] ∧
    decode [0x50000080] = .command (.send 0x80) [] ∧ decode [0x60000000] = .command .recv [] ∧
    decode [0x700002C0, 0x00000001, 0x000000FF] = .command (.xfw 0xC0 [0x01, 0xFF]) [] ∧
    decode [0x800008BF] = .command (.xfr 0xBF 8) []

/-- The words of each line of assembler, for every operand that fits its field, and the refusal of every operand that
does not (rule R92). -/
def Obligations.AssemblerWords : Prop :=
  assembleLine .psb = some [0x10000000] ∧ assembleLine .pse = some [0x20000000] ∧
    assembleLine .ceb = some [0x30000000] ∧ assembleLine .cee = some [0x40000000] ∧
    assembleLine .recv = some [0x60000000] ∧
    (∀ v, assembleLine (.send v) = if v < 256 then some [BitVec.ofNat 32 (0x50000000 + v)] else none) ∧
    (∀ a n, assembleLine (.xfr a n) =
      if a < 256 ∧ n < 256 then some [BitVec.ofNat 32 (0x80000000 + n * 0x100 + a)] else none) ∧
    (∀ a data, assembleLine (.xfw a data) =
      if a < 256 ∧ (∀ d ∈ data, d < 256) ∧ data.length ≤ 255 then
        some (BitVec.ofNat 32 (0x70000000 + data.length * 0x100 + a) :: data.map (BitVec.ofNat 32))
      else none) ∧
    (∀ w, assembleLine (.word w) = if w < 2 ^ 32 then some [BitVec.ofNat 32 w] else none)

/-- The pseudo-instructions expand to their transactions (rule R93). -/
def Obligations.PseudoInstructionsExpand : Prop :=
  (∀ a v, assembleLine (.wr1 a v) = assembleLine (.xfw a [v])) ∧
    (∀ a, assembleLine (.rd1 a) = assembleLine (.xfr a 1))

/-! ## Steps -/

/-- A step runs the decoded command: where the words at `cidx` decode to `i`, a step is `exec i` with nothing around it;
the command itself moves `cidx` past its words. -/
def Obligations.StepRunsDecodedCommand : Prop :=
  ∀ (s : State) (i : Instr) (rest : List Word),
    StreamFits s → s.faultCode = 0 → s.cidx < s.stream.length →
    decodeAt s.stream s.cidx = .command i rest → step s = exec i s

/-- "A model refuses a longer stream"; and in a shorter one every command index fits the 32 bits of FAULT_IDX
(rule R16). -/
def Obligations.LongStreamRefused : Prop :=
  ∀ s : State,
    (2 ^ 32 ≤ s.stream.length → step s = .refused .streamTooLong) ∧
    (s.stream.length < 2 ^ 32 → s.cidx ≤ s.stream.length → (BitVec.ofNat 32 s.cidx).toNat = s.cidx)

/-- `cidx` (rule R36): 0 at reset; the command decoded there is the one executed, and it advances `cidx` by its length
where it completes, so that nothing branches or wraps around; a fault does not advance it. -/
def Obligations.CidxAdvancesByLength : Prop :=
  State.reset.cidx = 0 ∧
  ∀ s t : State, s.faultCode = 0 → s.cidx < s.stream.length → step s = .next t →
    (t.faultCode = 0 → ∃ i rest, decodeAt s.stream s.cidx = .command i rest ∧ exec i s = .next t ∧
      t.cidx = s.cidx + i.words) ∧
    (t.faultCode ≠ 0 → t.cidx = s.cidx)

/-- The command stream is immutable during a run (rule R75). -/
def Obligations.StreamIsImmutable : Prop :=
  ∀ s t : State, step s = .next t → t.stream = s.stream

/-- The trace only grows, at its end, and the events of a command are contiguous in it; a step that records a fault, or
finds one recorded, appends none (rule R46, rule R68, rule R223). -/
def Obligations.TraceOnlyGrows : Prop :=
  State.reset.trace = [] ∧
  ∀ s t : State, step s = .next t →
    t.trace = s.trace ++ newEvents s t ∧ (t.faultCode ≠ 0 → newEvents s t = [])

/-! ## The commands: effect, frame, completion and faults -/

/-- PSB (rule R120). -/
def Obligations.PsbConfiguresPins : Prop :=
  encode .psb = [0x10000000] ∧
  (∀ s : State, s.psActive = true → exec .psb s = .next (withFault 3 s)) ∧
  (∀ s : State, s.psActive = false →
    exec .psb s = .next { s with
      pins := { dirClk := .known .output, dirCe := .known .output, dirDio := .known .input,
                latClk := .known .low, latCe := .known .low, latDio := s.pins.latDio }
      trace := s.trace ++ [.wr .ce .low, .dir .ce .output, .wr .clk .low, .dir .clk .output, .dir .dio .input]
      psActive := true
      cidx := s.cidx + 1 }) ∧
  (∃ t, exec .psb State.reset = .next t ∧ statusWord t = 0x00000001 ∧ t.cidx = 1)

/-- PSE (rule R121); pins that are idle already it leaves as they are. -/
def Obligations.PseIdlesPins : Prop :=
  encode .pse = [0x20000000] ∧
  (∀ s : State, s.psActive = false ∨ s.ses ≠ .closed → exec .pse s = .next (withFault 3 s)) ∧
  (∀ s : State, s.psActive = true → s.ses = .closed →
    exec .pse s = .next { s with
      pins := { s.pins with dirDio := .known .input, latClk := .known .low, latCe := .known .low }
      trace := s.trace ++ [.wr .ce .low, .wr .clk .low, .dir .dio .input]
      psActive := false
      cidx := s.cidx + 1 }) ∧
  (∀ s t : State, Idle s.pins → exec .pse s = .next t → t.pins = s.pins) ∧
  (∃ t, runAll [.psb, .pse] State.reset = some t ∧ statusWord t = 0x00000000 ∧ t.cidx = 2)

/-- CEB (rule R140). -/
def Obligations.CebOpensSession : Prop :=
  encode .ceb = [0x30000000] ∧
  (∀ s : State, s.psActive = false → exec .ceb s = .next (withFault 4 s)) ∧
  (∀ s : State, s.psActive = true → s.ses ≠ .closed → exec .ceb s = .next (withFault 5 s)) ∧
  (∀ s : State, s.psActive = true → s.ses = .closed →
    exec .ceb s = .next { s with
      pins := { s.pins with latCe := .known .high }
      trace := s.trace ++ [.wr .ce .high]
      ses := .openEmpty
      cidx := s.cidx + 1 }) ∧
  (∃ t, runAll [.psb, .ceb] State.reset = some t ∧ statusWord t = 0x00000003)

/-- CEE (rule R141). -/
def Obligations.CeeClosesSession : Prop :=
  encode .cee = [0x40000000] ∧
  (∀ s : State, s.ses = .closed → exec .cee s = .next (withFault 6 s)) ∧
  (∀ s : State, s.ses = .openEmpty → exec .cee s = .next (withFault 7 s)) ∧
  (∀ s : State, s.ses ≠ .closed → s.ses ≠ .openEmpty →
    exec .cee s = .next { s with
      pins := { s.pins with latCe := .known .low, dirDio := .known .input }
      trace := s.trace ++ [.wr .ce .low, .dir .dio .input]
      ses := .closed
      cidx := s.cidx + 1 }) ∧
  (∃ t, runAll [.psb, .ceb, .send 0xC1, .cee] State.reset = some t ∧ statusWord t = 0x00000001)

/-- SEND (rule R161), for every byte. -/
def Obligations.SendTransmitsByte : Prop :=
  ∀ v : Byte,
    encode (.send v) = [0x50000000 + v.setWidth 32] ∧
    (∀ s : State, s.ses = .closed → exec (.send v) s = .next (withFault 6 s)) ∧
    (∀ s : State, s.ses = .reading → exec (.send v) s = .next (withFault 8 s)) ∧
    (∀ s : State, s.ses ≠ .closed → s.ses ≠ .reading →
      exec (.send v) s = .next { s with
        pins := { s.pins with
          dirDio := .known .output, latDio := .known (lvl (v.getLsbD 7)), latClk := .known .low }
        trace := s.trace ++ (.dir .dio .output :: (List.range 8).flatMap fun i =>
          [.wr .dio (lvl (v.getLsbD i)), .wr .clk .high, .dly Config.tPulseUs, .wr .clk .low,
            .dly Config.tPulseUs])
        ses := if s.ses = .openEmpty then .cmdSent else .writing
        cidx := s.cidx + 1 }) ∧
    (sendEvents v).length = 41 ∧ ((sendEvents v).filter notDelay).length = 25 ∧
    byteLevels 0xA5 = [.high, .low, .high, .low, .low, .high, .low, .high]

/-- RECV (rule R162), whatever the draws: `drawAt s k` is the level of the k-th read from `s` on. -/
def Obligations.RecvReceivesByte : Prop :=
  encode .recv = [0x60000000] ∧
  (∀ s : State, s.ses = .closed → exec .recv s = .next (withFault 6 s)) ∧
  (∀ s : State, s.ses = .openEmpty → exec .recv s = .next (withFault 7 s)) ∧
  (∀ s : State, s.ses = .writing → exec .recv s = .next (withFault 8 s)) ∧
  (∀ s : State, s.ses = .cmdSent ∨ s.ses = .reading →
    exec .recv s = .next { s with
      pins := { s.pins with dirDio := .known .input, latClk := .known .low }
      trace := s.trace ++ (.dir .dio .input :: (List.range 8).flatMap fun i =>
        [.rd .dio (drawAt s i), .wr .clk .high, .dly Config.tPulseUs, .wr .clk .low, .dly Config.tPulseUs])
      acc := byteOf (drawAt s)
      rx := s.rx ++ [byteOf (drawAt s)]
      draws := s.draws.drop 8
      drawCount := s.drawCount + 8
      ses := .reading
      cidx := s.cidx + 1 }) ∧
  (∀ l, (recvEvents l).length = 41 ∧ ((recvEvents l).filter notDelay).length = 25) ∧
  byteOf (fun _ => .low) = 0x00 ∧ byteOf (fun _ => .high) = 0xFF ∧
  byteOf (fun i => if i < 2 then .high else .low) = 0x03

/-- XFW (rule R190), for every command byte and every payload that has an encoding. -/
def Obligations.XfwWritesOneSession : Prop :=
  ∀ (a : Byte) (data : List Byte), data.length ≤ 255 →
    encode (.xfw a data) =
      BitVec.ofNat 32 (0x70000000 + data.length * 0x100 + a.toNat) :: data.map (BitVec.setWidth 32) ∧
    (∀ s : State, s.psActive = false → exec (.xfw a data) s = .next (withFault 4 s)) ∧
    (∀ s : State, s.psActive = true → s.ses ≠ .closed → exec (.xfw a data) s = .next (withFault 5 s)) ∧
    (∀ s : State, s.psActive = true → s.ses = .closed →
      exec (.xfw a data) s = .next { s with
        pins := { s.pins with
          dirDio := .known .input, latCe := .known .low, latClk := .known .low,
          latDio := .known (lvl ((data.getLastD a).getLsbD 7)) }
        trace := s.trace ++ (.wr .ce .high :: (sendEvents a ++ data.flatMap sendEvents ++
          [.wr .ce .low, .dir .dio .input]))
        cidx := s.cidx + 1 + data.length }) ∧
    (xfwEvents a data).length = 44 + 41 * data.length ∧
    ((xfwEvents a data).filter notDelay).length = 28 + 25 * data.length

/-- XFR (rule R191), for every command byte, every count, whatever the draws. -/
def Obligations.XfrReadsOneSession : Prop :=
  ∀ (a : Byte) (n : BitVec 8),
    encode (.xfr a n) = [BitVec.ofNat 32 (0x80000000 + n.toNat * 0x100 + a.toNat)] ∧
    (∀ s : State, s.psActive = false → exec (.xfr a n) s = .next (withFault 4 s)) ∧
    (∀ s : State, s.psActive = true → s.ses ≠ .closed → exec (.xfr a n) s = .next (withFault 5 s)) ∧
    (∀ s : State, s.psActive = true → s.ses = .closed →
      exec (.xfr a n) s = .next { s with
        pins := { s.pins with
          dirDio := .known .input, latCe := .known .low, latClk := .known .low,
          latDio := .known (lvl (a.getLsbD 7)) }
        trace := s.trace ++ (.wr .ce .high :: (sendEvents a ++ .dir .dio .input ::
          ((List.range n.toNat).flatMap fun j => recvEvents fun i => drawAt s (8 * j + i)) ++
            [.wr .ce .low, .dir .dio .input]))
        acc := (bytesOf (drawAt s) n.toNat).getLastD s.acc
        rx := s.rx ++ bytesOf (drawAt s) n.toNat
        draws := s.draws.drop (8 * n.toNat)
        drawCount := s.drawCount + 8 * n.toNat
        cidx := s.cidx + 1 }) ∧
    (∀ l, (xfrEvents a l n.toNat).length = 45 + 41 * n.toNat ∧
      ((xfrEvents a l n.toNat).filter notDelay).length = 29 + 25 * n.toNat ∧
      (bytesOf l n.toNat).length = n.toNat)

/-! ## Faults -/

/-- The causes of the fault codes 3 to 8 and who raises them (rule R213 to rule R218): a command raises the first
condition that holds, and completes where none does. -/
def Obligations.FaultConditionsDecide : Prop :=
  ∀ (i : Instr) (s : State),
    match (faultConditions i s).find? (fun c => c.2) with
    | some c => exec i s = .next (withFault c.1 s)
    | none => ∃ t, exec i s = .next t ∧ t.faultCode = s.faultCode ∧ t.cidx = s.cidx + i.words

/-- Fault entry (rule R222): whatever command or check raises a fault, the fault registers are written as the rule says
and nothing else changes. -/
def Obligations.FaultEntryChangesNothingElse : Prop :=
  ∀ s t : State, s.faultCode = 0 → step s = .next t → t.faultCode ≠ 0 →
    t = { s with
      faultCode := t.faultCode
      faultIdx := BitVec.ofNat 32 (if s.cidx < s.stream.length then s.cidx else s.stream.length)
      faultWord := if s.cidx < s.stream.length then s.stream.getD s.cidx 0 else 0 }

/-- A fault is sticky (rule R224): a faulted state is no complete run, and reset clears it; that a step of a faulted
block is a next state, the same one, is the model's reading of rule R223 to rule R225 (log entry 6). -/
def Obligations.FaultIsSticky : Prop :=
  ∀ s : State, StreamFits s → s.faultCode ≠ 0 →
    step s = .next s ∧ ¬ Complete s ∧ (applyReset s).faultCode = 0

/-- Code 9 (rule R219): the stream ends with a session open. It takes precedence over code 10. -/
def Obligations.SessionLeftOpenFaults : Prop :=
  ∀ s : State, StreamFits s → s.faultCode = 0 → s.cidx = s.stream.length → s.ses ≠ .closed →
    step s = .next { s with faultCode := 9, faultIdx := BitVec.ofNat 32 s.stream.length, faultWord := 0 }

/-- Code 10 (rule R220): the stream ends with the pin session active and no session open. Codes 11 to 15 are never
raised. -/
def Obligations.PinSessionLeftActiveFaults : Prop :=
  (∀ s : State, StreamFits s → s.faultCode = 0 → s.cidx = s.stream.length → s.ses = .closed →
    s.psActive = true →
    step s = .next { s with faultCode := 10, faultIdx := BitVec.ofNat 32 s.stream.length, faultWord := 0 }) ∧
  (∀ s t : State, step s = .next t → t.faultCode ≠ s.faultCode → t.faultCode.toNat ≤ 10)

/-- A complete run is a run's successful end (rule R245): `STATUS = 0x00000000`; the model's choice (log entry 7) is
that a further step changes nothing. -/
def Obligations.CompleteRunStays : Prop :=
  ∀ s : State, StreamFits s → Complete s → step s = .next s ∧ statusWord s = 0x00000000

/-- After reset only PSB does not fault (rule R125). -/
def Obligations.AfterResetOnlyPsb : Prop :=
  ∀ i : Instr, ∃ t, exec i State.reset = .next t ∧ t.faultCode =
    match i with
    | .psb => 0 | .pse => 3 | .ceb => 4 | .cee => 6 | .send _ => 6 | .recv => 6 | .xfw _ _ => 4 | .xfr _ _ => 4

/-! ## State, reset, status -/

/-- The values rule R42 states for reset, which the host's reset puts into any state (rule R240). `acc` is unspecified
there and not stated. -/
def Obligations.ResetState : Prop :=
  ∀ s t : State, t = State.reset ∨ t = applyReset s →
    (∀ r, getDir t.pins r = .unknown ∧ getLat t.pins r = .unknown) ∧ t.psActive = false ∧ t.ses = .closed ∧
      t.rx = [] ∧ t.cidx = 0 ∧ t.faultCode = 0 ∧ t.faultIdx = 0 ∧ t.faultWord = 0 ∧ t.trace = []

/-- The fields of STATUS (rule R38). -/
def Obligations.StatusLayout : Prop :=
  (∀ s : State,
    (statusWord s).getLsbD 0 = s.psActive ∧
    (statusWord s).extractLsb' 1 3 = phaseCode s.ses ∧ (phaseCode s.ses).toNat ≤ 4 ∧
    ((statusWord s).getLsbD 4 = true ↔ s.faultCode ≠ 0) ∧
    (statusWord s).extractLsb' 5 3 = 0 ∧
    (statusWord s).extractLsb' 8 4 = s.faultCode ∧
    (statusWord s).extractLsb' 12 20 = 0 ∧
    (Invariant s → (statusWord s).extractLsb' 8 4 ≤ 10)) ∧
  [Phase.closed, .openEmpty, .cmdSent, .writing, .reading].map phaseCode = [0, 1, 2, 3, 4] ∧
  statusWord State.reset = 0

/-- The four pin primitives (rule R18, rule R22, rule R23): each appends exactly one event and changes only what it
names: the direction or the latch of its own role, every other direction and latch kept. The level of a read is the
environment's next draw (log entry 3), which the event records. And `lvl` and `bit`. -/
def Obligations.PinPrimitivesAppendOneEvent : Prop :=
  (∀ (r : Role) (d : Direction) (s : State), ∃ p : Pins,
    pinDir r d s = { s with pins := p, trace := s.trace ++ [.dir r d] } ∧
      getDir p r = .known d ∧ (∀ q, q ≠ r → getDir p q = getDir s.pins q) ∧ ∀ q, getLat p q = getLat s.pins q) ∧
  (∀ (r : Role) (l : Level) (s : State), ∃ p : Pins,
    pinWrite r l s = { s with pins := p, trace := s.trace ++ [.wr r l] } ∧
      getLat p r = .known l ∧ (∀ q, q ≠ r → getLat p q = getLat s.pins q) ∧ ∀ q, getDir p q = getDir s.pins q) ∧
  (∀ (r : Role) (s : State),
    pinRead r s = (drawAt s 0, { s with
      trace := s.trace ++ [.rd r (drawAt s 0)], draws := s.draws.tail, drawCount := s.drawCount + 1 })) ∧
  (∀ (s : State) (l : Level) (ls : List Level), s.draws = l :: ls → drawAt s 0 = l) ∧
  (∀ (t : Nat) (s : State), delay t s = { s with trace := s.trace ++ [.dly t] }) ∧
  lvl true = .high ∧ lvl false = .low ∧ bitOf .high = true ∧ bitOf .low = false

/-- A read is under no law (rule R25): for every sequence of levels there are draws that answer it. -/
def Obligations.ReadsAreUnderNoLaw : Prop :=
  (∀ (s : State) (f : Nat → Level) (n : Nat), ∃ ds, ∀ k, k < n → drawAt { s with draws := ds } k = f k) ∧
  (∀ (s : State) (b : Byte), s.ses = .cmdSent ∨ s.ses = .reading →
    ∃ ds t, exec .recv { s with draws := ds } = .next t ∧ t.rx = s.rx ++ [b])

/-- The pad rule (rule R24): only a driven, written latch that nothing contends with fixes the level of its pad. Rule
R24 gives contention for DIO only; that CLK and CE follow the same rule where another agent drives them, which rule R246
calls never modelled, is the model's choice (log entry 10). -/
def Obligations.PadShowsDrivenLatch : Prop :=
  ∀ (p : Pins) (r : Role) (other : Bool) (l : Level),
    padMay p r other l = true ↔
      (getDir p r = .known .output → other = false → ∀ m, getLat p r = .known m → l = m)

/-- From reset until the first PSB every pad may show any level (rule R241). -/
def Obligations.PadsFreeAtReset : Prop :=
  ∀ (r : Role) (other : Bool) (l : Level), padMay State.reset.pins r other l = true

/-- The pin identifiers are pairwise distinct (rule R11), as the model makes them (log entry 5). -/
def Obligations.PinIdentifiersDistinct : Prop :=
  ∀ r q : Role, Config.pinId r = Config.pinId q → r = q

/-! ## What every command keeps -/

/-- Who changes a pin direction (rule R122). -/
def Obligations.DirectionsChangeOnlyThere : Prop :=
  ∀ (i : Instr) (s t : State), exec i s = .next t →
    (t.pins.dirClk ≠ s.pins.dirClk ∨ t.pins.dirCe ≠ s.pins.dirCe → i = .psb) ∧
    (∀ d, Event.dir .clk d ∈ newEvents s t ∨ Event.dir .ce d ∈ newEvents s t → i = .psb) ∧
    (t.pins.dirDio ≠ s.pins.dirDio → i ≠ .ceb) ∧
    (∀ d, Event.dir .dio d ∈ newEvents s t → i ≠ .ceb)

/-- The frame of every command: what each one leaves as it was, wherever it answers a next state. -/
def Obligations.FrameOfEveryCommand : Prop :=
  ∀ (i : Instr) (s t : State), exec i s = .next t →
    t.stream = s.stream ∧
    (t.psActive ≠ s.psActive → i = .psb ∨ i = .pse) ∧
    (i = .psb ∨ i = .pse → t.ses = s.ses) ∧
    (receivedBytes i = 0 → t.acc = s.acc ∧ t.rx = s.rx ∧ t.draws = s.draws ∧ t.drawCount = s.drawCount) ∧
    t.drawBase = s.drawBase ∧
    (i = .psb ∨ i = .pse ∨ i = .ceb ∨ i = .cee ∨ i = .recv → t.pins.latDio = s.pins.latDio) ∧
    ((t.faultCode = s.faultCode ∧ t.faultIdx = s.faultIdx ∧ t.faultWord = s.faultWord) ∨
      t = withFault t.faultCode s)

/-- The RX stream (rule R35) and the bit order of reception (rule R63): RECV appends one byte and XFR `cnt` bytes, the
levels read, in order, are their bits, least significant first; it only grows and starts empty. -/
def Obligations.ReceivedBytesAreLevelsRead : Prop :=
  State.reset.rx = [] ∧
  (∀ s t : State, step s = .next t → s.rx <+: t.rx) ∧
  ∀ (i : Instr) (s t : State), Completes i s t →
    ∃ bytes : List Byte, t.rx = s.rx ++ bytes ∧ bytes.length = receivedBytes i ∧
      (newEvents s t).filterMap rdLevel =
        bytes.flatMap fun b => (List.range 8).map fun k => lvl (b.getLsbD k)

/-- The session grammar (rule R144). The phase table, for every phase, in every state, ps_active kept; CEB in CLOSED
needs the pin session. And the byte sequences: of SENDs and RECVs, a session completes exactly `cmd data*` and `cmd
recv*`, begun from OPEN_EMPTY (where sending nothing leaves it as it is), and whole, from CEB to CEE. -/
def Obligations.SessionGrammar : Prop :=
  (∀ s : State, (s.psActive = true → Follows (grammarCeb s.ses) .ceb s) ∧ Follows (grammarCee s.ses) .cee s ∧
    (∀ v, Follows (grammarSend s.ses) (.send v) s) ∧ Follows (grammarRecv s.ses) .recv s) ∧
  (∀ s : State, s.psActive = false → s.ses = .closed → exec .ceb s = .next (withFault 4 s)) ∧
  (∀ (s : State) (is : List Instr), s.faultCode = 0 → s.ses = .openEmpty → is.all isTransfer = true →
    ((runAll is s).isSome = true ↔ is = [] ∨ SessionBytes is)) ∧
  (∀ (s : State) (is : List Instr), s.faultCode = 0 → s.psActive = true → s.ses = .closed → is.all isTransfer = true →
    ((runAll (.ceb :: (is ++ [.cee])) s).isSome = true ↔ SessionBytes is))

/-! ## The wire -/

/-- The bit-ordering law (rule R163, rule R62): the DIO writes of `SEND v` are its bits, least significant first, each
bracketed by exactly one pulse. -/
def Obligations.BitOrderingLaw : Prop :=
  ∀ (v : Byte) (s t : State), Completes (.send v) s t →
    (newEvents s t).filterMap dioWrite = (List.range 8).map (fun i => lvl (decide (v.toNat / 2 ^ i % 2 = 1))) ∧
    (newEvents s t).filter dioOrClkWrite =
      (List.range 8).flatMap fun i =>
        [.wr .dio (lvl (decide (v.toNat / 2 ^ i % 2 = 1))), .wr .clk .high, .wr .clk .low]

/-- The pulse-count law (rule R164, rule R67): eight alternating pulses for every byte on the wire, starting with High,
and no other command writes CLK High. -/
def Obligations.PulseCountLaw : Prop :=
  ∀ (i : Instr) (s t : State), Completes i s t →
    (i ≠ .psb → i ≠ .pse →
      (newEvents s t).filterMap clkWrite = (List.replicate (8 * wireBytes i) [Level.high, Level.low]).flatten) ∧
    (i = .psb ∨ i = .pse → (newEvents s t).filterMap clkWrite = [.low])

/-- SEND and RECV have the same shape (rule R168), and the direction is set at the start of every byte (rule R167). -/
def Obligations.SendRecvSameShape : Prop :=
  ∀ (v : Byte) (s t s' t' : State), Completes (.send v) s t → Completes .recv s' t' →
    (∃ ls : List Level, ls.length = 8 ∧
      newEvents s t = .dir .dio .output :: ls.flatMap fun l => .wr .dio l :: pulseEvents) ∧
    (∃ ls : List Level, ls.length = 8 ∧
      newEvents s' t' = .dir .dio .input :: ls.flatMap fun l => .rd .dio l :: pulseEvents) ∧
    (newEvents s t).length = 41 ∧ (newEvents s' t').length = 41 ∧
    ((newEvents s t).filter notDelay).length = 25 ∧ ((newEvents s' t').filter notDelay).length = 25 ∧
    (newEvents s t).filterMap clkWrite = (newEvents s' t').filterMap clkWrite

/-- The writes of CE by each command (rule R142): CE is never toggled inside a transfer. -/
def Obligations.CeWritesPerCommand : Prop :=
  ∀ (i : Instr) (s t : State), Completes i s t → (newEvents s t).filterMap ceWrite = ceWrites i

/-- The transmit timing relation (rule R165): in an open session whose CE is High, a peripheral that samples DIO at the
rising edges, and one that samples at the falling edges, both see the bits of the byte, least significant first. -/
def Obligations.SendIsSampledAtBothEdges : Prop :=
  ∀ (v : Byte) (s t : State), s.pins.latCe = .known .high → Completes (.send v) s t →
    ∀ edge : Level, sampledAt edge s.pins (newEvents s t) =
      (List.range 8).map fun i => LatState.known (lvl (v.getLsbD i))

/-- One write session carries its bytes (rule R190, rule R64, rule R62, rule R165): a peripheral that samples DIO at
either edge while CE is High and the block drives DIO sees the command byte and the payload, in order, least significant
bit first, and nothing else; CE rises once before and falls once after. A payload above 255 bytes has no encoding, and
what `exec` does with one is the model's choice (log entry 20). -/
def Obligations.XfwWireCarriesBytes : Prop :=
  ∀ (a : Byte) (data : List Byte) (s t : State), Completes (.xfw a data) s t →
    (∀ edge : Level, sampledAt edge s.pins (newEvents s t) =
      (a :: data).flatMap fun b => (List.range 8).map fun i => LatState.known (lvl (b.getLsbD i))) ∧
    (∃ mid, newEvents s t = .wr .ce .high :: (mid ++ [.wr .ce .low, .dir .dio .input]) ∧
      mid.filterMap ceWrite = [])

/-- A delay is a timing annotation only (rule R253): dropping the `Dly` events of any list of events changes neither the
pins it leaves, nor its waveform, nor what the peripheral can tell apart. -/
def Obligations.DelaysAreInvisible : Prop :=
  ∀ (p : Pins) (es : List Event),
    replay p (es.filter notDelay) = replay p es ∧ waveform p (es.filter notDelay) = waveform p es ∧
      peripheralView p (es.filter notDelay) = peripheralView p es

/-- The least times (rule R254): 16 T for every byte on the wire, nothing for the others. -/
def Obligations.LeastTimes : Prop :=
  ∀ (i : Instr) (s t : State), Completes i s t →
    minTime (newEvents s t) = 16 * wireBytes i * Config.tPulseUs

/-- The stale latch (rule R48, rule R252): the first event of a SEND drives the DIO latch as the last write left it; a
turn of direction never changes a latch. -/
def Obligations.StaleDioLatchIsDriven : Prop :=
  (∀ (p : Pins) (r q : Role) (d : DirState), getLat (setDir p r d) q = getLat p q) ∧
  ∀ (v : Byte) (s t : State), Completes (.send v) s t →
    (newEvents s t).head? = some (.dir .dio .output) ∧
    (replay s.pins ((newEvents s t).take 1)).latDio = s.pins.latDio ∧
    (replay s.pins ((newEvents s t).take 1)).dirDio = .known .output ∧
    t.pins.latDio = .known (lvl (v.getLsbD 7))

/-! ## Transactions and primitives -/

/-- XFW equals its primitive sequence (rule R192): the same events, the same rx, the same final state, except that
`cidx` advances by `1 + n` instead of `n + 3`. A payload above 255 bytes has no encoding, and what `exec` does with one
is the model's choice (log entry 20). -/
def Obligations.XfwEqualsPrimitives : Prop :=
  ∀ (a : Byte) (data : List Byte) (s : State),
    s.faultCode = 0 → s.psActive = true → s.ses = .closed →
    ∃ t u, exec (.xfw a data) s = .next t ∧
      runAll (.ceb :: .send a :: (data.map Instr.send ++ [.cee])) s = some u ∧
      u = { t with cidx := u.cidx } ∧ t.cidx = s.cidx + (1 + data.length) ∧
      u.cidx = s.cidx + (data.length + 3)

/-- XFR against its primitive sequence (rule R192), for one byte or more: the same view of the peripheral (waveform and
levels read), the same draws, the same rx, the same final state, and a trace longer by exactly one `Dir(DIO,In)`. At
`n = 0` the waveforms differ (`Obligations.XfrOfNoBytesTurnsFirst`; log entry 16). -/
def Obligations.XfrEqualsPrimitives : Prop :=
  ∀ (a : Byte) (n : BitVec 8) (s : State), n ≠ 0 →
    s.faultCode = 0 → s.psActive = true → s.ses = .closed →
    ∃ t u, exec (.xfr a n) s = .next t ∧
      runAll (.ceb :: .send a :: (List.replicate n.toNat Instr.recv ++ [.cee])) s = some u ∧
      t = { u with trace := t.trace, cidx := s.cidx + 1 } ∧
      waveform s.pins (newEvents s t) = waveform s.pins (newEvents s u) ∧
      peripheralView s.pins (newEvents s t) = peripheralView s.pins (newEvents s u) ∧
      (∃ before after, newEvents s u = before ++ after ∧
        newEvents s t = before ++ .dir .dio .input :: after)

/-- XFR of no bytes (rule R191 at n = 0) against `CEB; SEND a; CEE`: the same final state and rx and one `Dir(DIO,In)`
more, but DIO is released before CE falls and not after, so the waveforms differ: here rule R192's claim of one
waveform, which the spec derives, does not follow from rule R191 (log entry 16). -/
def Obligations.XfrOfNoBytesTurnsFirst : Prop :=
  ∀ (a : Byte) (s : State), s.faultCode = 0 → s.psActive = true → s.ses = .closed → Idle s.pins →
    ∃ t u, exec (.xfr a 0) s = .next t ∧ runAll [.ceb, .send a, .cee] s = some u ∧
      t = { u with trace := t.trace, cidx := s.cidx + 1 } ∧
      (newEvents s t).length = (newEvents s u).length + 1 ∧
      waveform s.pins (newEvents s t) ≠ waveform s.pins (newEvents s u)

/-! ## The whole machine -/

/-- The accumulator is never read (rule R33): what a step does, up to the accumulator itself, does not depend on it. -/
def Obligations.AccIsNeverRead : Prop :=
  ∀ (s : State) (v : Byte), forgetAcc (step { s with acc := v }) = forgetAcc (step s)

/-- The invariant holds at reset: of the reset state, of the start of a run, whatever stream the host supplied and
whatever the environment will answer, and of what the host's reset makes of any state, a faulted one included (rule
R240). Its clause `drawn` is about the model's own counters (log entry 3), which a reset makes agree whatever they are.
-/
def Obligations.InvariantAtReset : Prop :=
  Invariant State.reset ∧ (∀ (stream : List Word) (draws : List Level), Invariant (start stream draws)) ∧
    ∀ s : State, Invariant (applyReset s)

/-- Every step keeps the invariant: R26, R30, R31, R32, R36, R38, R39, R46, R63, R77, R123, R124, R142, R164, R248, R250
as `Safety.Invariant` says them, from every state that meets it. -/
def Obligations.StepKeepsInvariant : Prop :=
  ∀ s t : State, Invariant s → step s = .next t → Invariant t

/-- From a state that meets the invariant the machine never stops with a fault or a refusal of the model. That a faulted
state and a complete one answer a next state is the model's choice (log entries 6 and 7). -/
def Obligations.InvariantNeverStops : Prop :=
  ∀ s : State, Invariant s → StreamFits s → ∃ t, step s = .next t

/-- Every run of every stream the model admits, the first one and every one after a reset, whatever the draws, goes on
for ever without a stop of the model and meets the invariant at every step; the steps after the end of the run are the
model's (log entries 6 and 7). -/
def Obligations.EveryRunMeetsInvariant : Prop :=
  ∀ (s : State) (k : Nat), RunStart s → StreamFits s → ∃ t, core.run k s = .next t ∧ Invariant t

/-- Every run, the first one and every one after a reset, ends in one of two ways (rule R245), faulted or complete, and
it does so within one step more than the stream has words; that from then on nothing changes is the model's choice of
the steps after the end (log entries 6 and 7). -/
def Obligations.EveryRunEnds : Prop :=
  ∀ s : State, RunStart s → StreamFits s →
    ∃ t, core.run (s.stream.length + 1) s = .next t ∧ (Faulted t ∨ Complete t) ∧
      ∀ k, core.run (s.stream.length + 1 + k) s = .next t
end

