-- ==== Sys2Proof/Laws/Decode.lean ====
section
/-! SUPPORT. The fields of a word as numbers, the fields of an encoded word, and what the payload reader answers. -/

namespace Sys2Proof

theorem opField_toNat (w : Word) : (opField w).toNat = w.toNat / 2^28 := by
  have := w.isLt
  simp [opField, BitVec.extractLsb'_toNat, Nat.shiftRight_eq_div_pow]; omega

theorem rsvField_toNat (w : Word) : (rsvField w).toNat = w.toNat / 2^16 % 2^12 := by
  simp [rsvField, BitVec.extractLsb'_toNat, Nat.shiftRight_eq_div_pow]

theorem cntField_toNat (w : Word) : (cntField w).toNat = w.toNat / 2^8 % 2^8 := by
  simp [cntField, BitVec.extractLsb'_toNat, Nat.shiftRight_eq_div_pow]

theorem immField_toNat (w : Word) : (immField w).toNat = w.toNat % 2^8 := by
  simp [immField, BitVec.extractLsb'_toNat, Nat.shiftRight_eq_div_pow]

theorem zeroField_toNat (w : Word) : (zeroField w).toNat = w.toNat / 2^8 := by
  have := w.isLt
  simp [zeroField, BitVec.extractLsb'_toNat, Nat.shiftRight_eq_div_pow]; omega

theorem dataField_toNat (w : Word) : (dataField w).toNat = w.toNat % 2^8 := by
  simp [dataField, BitVec.extractLsb'_toNat, Nat.shiftRight_eq_div_pow]

theorem formatC_toNat (op : BitVec 4) (cnt : BitVec 8) (imm : Byte) : (formatC op cnt imm).toNat = op.toNat * 2^28 + cnt.toNat * 2^8 + imm.toNat := by
  have := op.isLt; have := cnt.isLt; have := imm.isLt
  simp [formatC]; omega

theorem opField_formatC (op : BitVec 4) (cnt : BitVec 8) (imm : Byte) : opField (formatC op cnt imm) = op := by
  apply BitVec.eq_of_toNat_eq; rw [opField_toNat, formatC_toNat]
  have := op.isLt; have := cnt.isLt; have := imm.isLt; omega

theorem rsvField_formatC (op : BitVec 4) (cnt : BitVec 8) (imm : Byte) : rsvField (formatC op cnt imm) = 0 := by
  apply BitVec.eq_of_toNat_eq; rw [rsvField_toNat, formatC_toNat]
  have := op.isLt; have := cnt.isLt; have := imm.isLt; simp; omega

theorem cntField_formatC (op : BitVec 4) (cnt : BitVec 8) (imm : Byte) : cntField (formatC op cnt imm) = cnt := by
  apply BitVec.eq_of_toNat_eq; rw [cntField_toNat, formatC_toNat]
  have := op.isLt; have := cnt.isLt; have := imm.isLt; omega

theorem immField_formatC (op : BitVec 4) (cnt : BitVec 8) (imm : Byte) : immField (formatC op cnt imm) = imm := by
  apply BitVec.eq_of_toNat_eq; rw [immField_toNat, formatC_toNat]
  have := op.isLt; have := cnt.isLt; have := imm.isLt; omega

theorem formatD_toNat (d : Byte) : (formatD d).toNat = d.toNat := by
  have := d.isLt; simp [formatD]; omega

theorem zeroField_formatD (d : Byte) : zeroField (formatD d) = 0 := by
  apply BitVec.eq_of_toNat_eq; rw [zeroField_toNat, formatD_toNat]; have := d.isLt; simp; omega

theorem dataField_formatD (d : Byte) : dataField (formatD d) = d := by
  apply BitVec.eq_of_toNat_eq; rw [dataField_toNat, formatD_toNat]; have := d.isLt; omega

theorem takePayload_map (data : List Byte) (rest : List Word) : takePayload data.length (data.map formatD ++ rest) = some (data, rest) := by
  induction data with
  | nil => rfl
  | cons d data ih => simp [takePayload, zeroField_formatD, dataField_formatD, ih]

theorem formatC_of (w : Word) (h : rsvField w = 0) : formatC (opField w) (cntField w) (immField w) = w := by
  apply BitVec.eq_of_toNat_eq
  have h := congrArg BitVec.toNat h
  rw [rsvField_toNat] at h
  rw [formatC_toNat, opField_toNat, cntField_toNat, immField_toNat]
  have := w.isLt
  simp at h; omega

theorem formatD_of (w : Word) (h : zeroField w = 0) : formatD (dataField w) = w := by
  apply BitVec.eq_of_toNat_eq
  have h := congrArg BitVec.toNat h
  rw [zeroField_toNat] at h
  rw [formatD_toNat, dataField_toNat]
  simp at h; omega

theorem takePayload_some {n : Nat} {ws bytes rest} (h : takePayload n ws = some (bytes, rest)) :
    bytes.length = n ∧ ws = bytes.map formatD ++ rest := by
  induction n generalizing ws bytes rest with
  | zero => simp [takePayload] at h; obtain ⟨rfl, rfl⟩ := h; simp
  | succ n ih =>
    cases ws with
    | nil => simp [takePayload] at h
    | cons d ws =>
      simp only [takePayload] at h
      split at h
      · rename_i hz
        cases hx : takePayload n ws with
        | none => simp [hx] at h
        | some p =>
          obtain ⟨b, r⟩ := p
          simp [hx] at h
          obtain ⟨rfl, rfl⟩ := h
          obtain ⟨h1, h2⟩ := ih hx
          simp [h1, formatD_of d hz, h2]
      · cases h

end Sys2Proof
end

