-- ==== Sys2Proof/Laws/State.lean ====
section
/-! SUPPORT. One lemma per field per elementary update of the state, true by unfolding, so that no later proof unfolds a record
update. -/

namespace Sys2Proof.Machine

/-! ## pinDir -/

@[simp] theorem pinDir_stream (r : Role) (d : Direction) (s : State) :
    (pinDir r d s).stream = s.stream := rfl
@[simp] theorem pinDir_cidx (r : Role) (d : Direction) (s : State) :
    (pinDir r d s).cidx = s.cidx := rfl
@[simp] theorem pinDir_pins (r : Role) (d : Direction) (s : State) :
    (pinDir r d s).pins = setDir s.pins r (.known d) := rfl
@[simp] theorem pinDir_psActive (r : Role) (d : Direction) (s : State) :
    (pinDir r d s).psActive = s.psActive := rfl
@[simp] theorem pinDir_ses (r : Role) (d : Direction) (s : State) :
    (pinDir r d s).ses = s.ses := rfl
@[simp] theorem pinDir_acc (r : Role) (d : Direction) (s : State) :
    (pinDir r d s).acc = s.acc := rfl
@[simp] theorem pinDir_rx (r : Role) (d : Direction) (s : State) :
    (pinDir r d s).rx = s.rx := rfl
@[simp] theorem pinDir_faultCode (r : Role) (d : Direction) (s : State) :
    (pinDir r d s).faultCode = s.faultCode := rfl
@[simp] theorem pinDir_faultIdx (r : Role) (d : Direction) (s : State) :
    (pinDir r d s).faultIdx = s.faultIdx := rfl
@[simp] theorem pinDir_faultWord (r : Role) (d : Direction) (s : State) :
    (pinDir r d s).faultWord = s.faultWord := rfl
@[simp] theorem pinDir_trace (r : Role) (d : Direction) (s : State) :
    (pinDir r d s).trace = s.trace ++ [.dir r d] := rfl
@[simp] theorem pinDir_draws (r : Role) (d : Direction) (s : State) :
    (pinDir r d s).draws = s.draws := rfl
@[simp] theorem pinDir_drawCount (r : Role) (d : Direction) (s : State) :
    (pinDir r d s).drawCount = s.drawCount := rfl
@[simp] theorem pinDir_drawBase (r : Role) (d : Direction) (s : State) :
    (pinDir r d s).drawBase = s.drawBase := rfl

/-! ## pinWrite -/

@[simp] theorem pinWrite_stream (r : Role) (l : Level) (s : State) :
    (pinWrite r l s).stream = s.stream := rfl
@[simp] theorem pinWrite_cidx (r : Role) (l : Level) (s : State) :
    (pinWrite r l s).cidx = s.cidx := rfl
@[simp] theorem pinWrite_pins (r : Role) (l : Level) (s : State) :
    (pinWrite r l s).pins = setLat s.pins r (.known l) := rfl
@[simp] theorem pinWrite_psActive (r : Role) (l : Level) (s : State) :
    (pinWrite r l s).psActive = s.psActive := rfl
@[simp] theorem pinWrite_ses (r : Role) (l : Level) (s : State) :
    (pinWrite r l s).ses = s.ses := rfl
@[simp] theorem pinWrite_acc (r : Role) (l : Level) (s : State) :
    (pinWrite r l s).acc = s.acc := rfl
@[simp] theorem pinWrite_rx (r : Role) (l : Level) (s : State) :
    (pinWrite r l s).rx = s.rx := rfl
@[simp] theorem pinWrite_faultCode (r : Role) (l : Level) (s : State) :
    (pinWrite r l s).faultCode = s.faultCode := rfl
@[simp] theorem pinWrite_faultIdx (r : Role) (l : Level) (s : State) :
    (pinWrite r l s).faultIdx = s.faultIdx := rfl
@[simp] theorem pinWrite_faultWord (r : Role) (l : Level) (s : State) :
    (pinWrite r l s).faultWord = s.faultWord := rfl
@[simp] theorem pinWrite_trace (r : Role) (l : Level) (s : State) :
    (pinWrite r l s).trace = s.trace ++ [.wr r l] := rfl
@[simp] theorem pinWrite_draws (r : Role) (l : Level) (s : State) :
    (pinWrite r l s).draws = s.draws := rfl
@[simp] theorem pinWrite_drawCount (r : Role) (l : Level) (s : State) :
    (pinWrite r l s).drawCount = s.drawCount := rfl
@[simp] theorem pinWrite_drawBase (r : Role) (l : Level) (s : State) :
    (pinWrite r l s).drawBase = s.drawBase := rfl

/-! ## delay -/

@[simp] theorem delay_stream (t : Nat) (s : State) :
    (delay t s).stream = s.stream := rfl
@[simp] theorem delay_cidx (t : Nat) (s : State) :
    (delay t s).cidx = s.cidx := rfl
@[simp] theorem delay_pins (t : Nat) (s : State) :
    (delay t s).pins = s.pins := rfl
@[simp] theorem delay_psActive (t : Nat) (s : State) :
    (delay t s).psActive = s.psActive := rfl
@[simp] theorem delay_ses (t : Nat) (s : State) :
    (delay t s).ses = s.ses := rfl
@[simp] theorem delay_acc (t : Nat) (s : State) :
    (delay t s).acc = s.acc := rfl
@[simp] theorem delay_rx (t : Nat) (s : State) :
    (delay t s).rx = s.rx := rfl
@[simp] theorem delay_faultCode (t : Nat) (s : State) :
    (delay t s).faultCode = s.faultCode := rfl
@[simp] theorem delay_faultIdx (t : Nat) (s : State) :
    (delay t s).faultIdx = s.faultIdx := rfl
@[simp] theorem delay_faultWord (t : Nat) (s : State) :
    (delay t s).faultWord = s.faultWord := rfl
@[simp] theorem delay_trace (t : Nat) (s : State) :
    (delay t s).trace = s.trace ++ [.dly t] := rfl
@[simp] theorem delay_draws (t : Nat) (s : State) :
    (delay t s).draws = s.draws := rfl
@[simp] theorem delay_drawCount (t : Nat) (s : State) :
    (delay t s).drawCount = s.drawCount := rfl
@[simp] theorem delay_drawBase (t : Nat) (s : State) :
    (delay t s).drawBase = s.drawBase := rfl

/-! ## afterRead -/

@[simp] theorem afterRead_stream (r : Role) (s : State) :
    (afterRead r s).stream = s.stream := rfl
@[simp] theorem afterRead_cidx (r : Role) (s : State) :
    (afterRead r s).cidx = s.cidx := rfl
@[simp] theorem afterRead_pins (r : Role) (s : State) :
    (afterRead r s).pins = s.pins := rfl
@[simp] theorem afterRead_psActive (r : Role) (s : State) :
    (afterRead r s).psActive = s.psActive := rfl
@[simp] theorem afterRead_ses (r : Role) (s : State) :
    (afterRead r s).ses = s.ses := rfl
@[simp] theorem afterRead_acc (r : Role) (s : State) :
    (afterRead r s).acc = s.acc := rfl
@[simp] theorem afterRead_rx (r : Role) (s : State) :
    (afterRead r s).rx = s.rx := rfl
@[simp] theorem afterRead_faultCode (r : Role) (s : State) :
    (afterRead r s).faultCode = s.faultCode := rfl
@[simp] theorem afterRead_faultIdx (r : Role) (s : State) :
    (afterRead r s).faultIdx = s.faultIdx := rfl
@[simp] theorem afterRead_faultWord (r : Role) (s : State) :
    (afterRead r s).faultWord = s.faultWord := rfl
@[simp] theorem afterRead_trace (r : Role) (s : State) :
    (afterRead r s).trace = s.trace ++ [.rd r (drawAt s 0)] := rfl
@[simp] theorem afterRead_draws (r : Role) (s : State) :
    (afterRead r s).draws = s.draws.tail := rfl
@[simp] theorem afterRead_drawCount (r : Role) (s : State) :
    (afterRead r s).drawCount = s.drawCount + 1 := rfl
@[simp] theorem afterRead_drawBase (r : Role) (s : State) :
    (afterRead r s).drawBase = s.drawBase := rfl

/-! ## advance -/

@[simp] theorem advance_stream (n : Nat) (s : State) :
    (advance n s).stream = s.stream := rfl
@[simp] theorem advance_cidx (n : Nat) (s : State) :
    (advance n s).cidx = s.cidx + n := rfl
@[simp] theorem advance_pins (n : Nat) (s : State) :
    (advance n s).pins = s.pins := rfl
@[simp] theorem advance_psActive (n : Nat) (s : State) :
    (advance n s).psActive = s.psActive := rfl
@[simp] theorem advance_ses (n : Nat) (s : State) :
    (advance n s).ses = s.ses := rfl
@[simp] theorem advance_acc (n : Nat) (s : State) :
    (advance n s).acc = s.acc := rfl
@[simp] theorem advance_rx (n : Nat) (s : State) :
    (advance n s).rx = s.rx := rfl
@[simp] theorem advance_faultCode (n : Nat) (s : State) :
    (advance n s).faultCode = s.faultCode := rfl
@[simp] theorem advance_faultIdx (n : Nat) (s : State) :
    (advance n s).faultIdx = s.faultIdx := rfl
@[simp] theorem advance_faultWord (n : Nat) (s : State) :
    (advance n s).faultWord = s.faultWord := rfl
@[simp] theorem advance_trace (n : Nat) (s : State) :
    (advance n s).trace = s.trace := rfl
@[simp] theorem advance_draws (n : Nat) (s : State) :
    (advance n s).draws = s.draws := rfl
@[simp] theorem advance_drawCount (n : Nat) (s : State) :
    (advance n s).drawCount = s.drawCount := rfl
@[simp] theorem advance_drawBase (n : Nat) (s : State) :
    (advance n s).drawBase = s.drawBase := rfl

/-! ## setSes -/

@[simp] theorem setSes_stream (p : Phase) (s : State) :
    (setSes p s).stream = s.stream := rfl
@[simp] theorem setSes_cidx (p : Phase) (s : State) :
    (setSes p s).cidx = s.cidx := rfl
@[simp] theorem setSes_pins (p : Phase) (s : State) :
    (setSes p s).pins = s.pins := rfl
@[simp] theorem setSes_psActive (p : Phase) (s : State) :
    (setSes p s).psActive = s.psActive := rfl
@[simp] theorem setSes_ses (p : Phase) (s : State) :
    (setSes p s).ses = p := rfl
@[simp] theorem setSes_acc (p : Phase) (s : State) :
    (setSes p s).acc = s.acc := rfl
@[simp] theorem setSes_rx (p : Phase) (s : State) :
    (setSes p s).rx = s.rx := rfl
@[simp] theorem setSes_faultCode (p : Phase) (s : State) :
    (setSes p s).faultCode = s.faultCode := rfl
@[simp] theorem setSes_faultIdx (p : Phase) (s : State) :
    (setSes p s).faultIdx = s.faultIdx := rfl
@[simp] theorem setSes_faultWord (p : Phase) (s : State) :
    (setSes p s).faultWord = s.faultWord := rfl
@[simp] theorem setSes_trace (p : Phase) (s : State) :
    (setSes p s).trace = s.trace := rfl
@[simp] theorem setSes_draws (p : Phase) (s : State) :
    (setSes p s).draws = s.draws := rfl
@[simp] theorem setSes_drawCount (p : Phase) (s : State) :
    (setSes p s).drawCount = s.drawCount := rfl
@[simp] theorem setSes_drawBase (p : Phase) (s : State) :
    (setSes p s).drawBase = s.drawBase := rfl

/-! ## setPsActive -/

@[simp] theorem setPsActive_stream (b : Bool) (s : State) :
    (setPsActive b s).stream = s.stream := rfl
@[simp] theorem setPsActive_cidx (b : Bool) (s : State) :
    (setPsActive b s).cidx = s.cidx := rfl
@[simp] theorem setPsActive_pins (b : Bool) (s : State) :
    (setPsActive b s).pins = s.pins := rfl
@[simp] theorem setPsActive_psActive (b : Bool) (s : State) :
    (setPsActive b s).psActive = b := rfl
@[simp] theorem setPsActive_ses (b : Bool) (s : State) :
    (setPsActive b s).ses = s.ses := rfl
@[simp] theorem setPsActive_acc (b : Bool) (s : State) :
    (setPsActive b s).acc = s.acc := rfl
@[simp] theorem setPsActive_rx (b : Bool) (s : State) :
    (setPsActive b s).rx = s.rx := rfl
@[simp] theorem setPsActive_faultCode (b : Bool) (s : State) :
    (setPsActive b s).faultCode = s.faultCode := rfl
@[simp] theorem setPsActive_faultIdx (b : Bool) (s : State) :
    (setPsActive b s).faultIdx = s.faultIdx := rfl
@[simp] theorem setPsActive_faultWord (b : Bool) (s : State) :
    (setPsActive b s).faultWord = s.faultWord := rfl
@[simp] theorem setPsActive_trace (b : Bool) (s : State) :
    (setPsActive b s).trace = s.trace := rfl
@[simp] theorem setPsActive_draws (b : Bool) (s : State) :
    (setPsActive b s).draws = s.draws := rfl
@[simp] theorem setPsActive_drawCount (b : Bool) (s : State) :
    (setPsActive b s).drawCount = s.drawCount := rfl
@[simp] theorem setPsActive_drawBase (b : Bool) (s : State) :
    (setPsActive b s).drawBase = s.drawBase := rfl

/-! ## setAcc -/

@[simp] theorem setAcc_stream (v : Byte) (s : State) :
    (setAcc v s).stream = s.stream := rfl
@[simp] theorem setAcc_cidx (v : Byte) (s : State) :
    (setAcc v s).cidx = s.cidx := rfl
@[simp] theorem setAcc_pins (v : Byte) (s : State) :
    (setAcc v s).pins = s.pins := rfl
@[simp] theorem setAcc_psActive (v : Byte) (s : State) :
    (setAcc v s).psActive = s.psActive := rfl
@[simp] theorem setAcc_ses (v : Byte) (s : State) :
    (setAcc v s).ses = s.ses := rfl
@[simp] theorem setAcc_acc (v : Byte) (s : State) :
    (setAcc v s).acc = v := rfl
@[simp] theorem setAcc_rx (v : Byte) (s : State) :
    (setAcc v s).rx = s.rx := rfl
@[simp] theorem setAcc_faultCode (v : Byte) (s : State) :
    (setAcc v s).faultCode = s.faultCode := rfl
@[simp] theorem setAcc_faultIdx (v : Byte) (s : State) :
    (setAcc v s).faultIdx = s.faultIdx := rfl
@[simp] theorem setAcc_faultWord (v : Byte) (s : State) :
    (setAcc v s).faultWord = s.faultWord := rfl
@[simp] theorem setAcc_trace (v : Byte) (s : State) :
    (setAcc v s).trace = s.trace := rfl
@[simp] theorem setAcc_draws (v : Byte) (s : State) :
    (setAcc v s).draws = s.draws := rfl
@[simp] theorem setAcc_drawCount (v : Byte) (s : State) :
    (setAcc v s).drawCount = s.drawCount := rfl
@[simp] theorem setAcc_drawBase (v : Byte) (s : State) :
    (setAcc v s).drawBase = s.drawBase := rfl

/-! ## emit -/

@[simp] theorem emit_stream (v : Byte) (s : State) :
    (emit v s).stream = s.stream := rfl
@[simp] theorem emit_cidx (v : Byte) (s : State) :
    (emit v s).cidx = s.cidx := rfl
@[simp] theorem emit_pins (v : Byte) (s : State) :
    (emit v s).pins = s.pins := rfl
@[simp] theorem emit_psActive (v : Byte) (s : State) :
    (emit v s).psActive = s.psActive := rfl
@[simp] theorem emit_ses (v : Byte) (s : State) :
    (emit v s).ses = s.ses := rfl
@[simp] theorem emit_acc (v : Byte) (s : State) :
    (emit v s).acc = s.acc := rfl
@[simp] theorem emit_rx (v : Byte) (s : State) :
    (emit v s).rx = s.rx ++ [v] := rfl
@[simp] theorem emit_faultCode (v : Byte) (s : State) :
    (emit v s).faultCode = s.faultCode := rfl
@[simp] theorem emit_faultIdx (v : Byte) (s : State) :
    (emit v s).faultIdx = s.faultIdx := rfl
@[simp] theorem emit_faultWord (v : Byte) (s : State) :
    (emit v s).faultWord = s.faultWord := rfl
@[simp] theorem emit_trace (v : Byte) (s : State) :
    (emit v s).trace = s.trace := rfl
@[simp] theorem emit_draws (v : Byte) (s : State) :
    (emit v s).draws = s.draws := rfl
@[simp] theorem emit_drawCount (v : Byte) (s : State) :
    (emit v s).drawCount = s.drawCount := rfl
@[simp] theorem emit_drawBase (v : Byte) (s : State) :
    (emit v s).drawBase = s.drawBase := rfl

/-! ## takeFault -/

@[simp] theorem takeFault_stream (c : BitVec 4) (i w : BitVec 32) (s : State) :
    (takeFault c i w s).stream = s.stream := rfl
@[simp] theorem takeFault_cidx (c : BitVec 4) (i w : BitVec 32) (s : State) :
    (takeFault c i w s).cidx = s.cidx := rfl
@[simp] theorem takeFault_pins (c : BitVec 4) (i w : BitVec 32) (s : State) :
    (takeFault c i w s).pins = s.pins := rfl
@[simp] theorem takeFault_psActive (c : BitVec 4) (i w : BitVec 32) (s : State) :
    (takeFault c i w s).psActive = s.psActive := rfl
@[simp] theorem takeFault_ses (c : BitVec 4) (i w : BitVec 32) (s : State) :
    (takeFault c i w s).ses = s.ses := rfl
@[simp] theorem takeFault_acc (c : BitVec 4) (i w : BitVec 32) (s : State) :
    (takeFault c i w s).acc = s.acc := rfl
@[simp] theorem takeFault_rx (c : BitVec 4) (i w : BitVec 32) (s : State) :
    (takeFault c i w s).rx = s.rx := rfl
@[simp] theorem takeFault_faultCode (c : BitVec 4) (i w : BitVec 32) (s : State) :
    (takeFault c i w s).faultCode = c := rfl
@[simp] theorem takeFault_faultIdx (c : BitVec 4) (i w : BitVec 32) (s : State) :
    (takeFault c i w s).faultIdx = i := rfl
@[simp] theorem takeFault_faultWord (c : BitVec 4) (i w : BitVec 32) (s : State) :
    (takeFault c i w s).faultWord = w := rfl
@[simp] theorem takeFault_trace (c : BitVec 4) (i w : BitVec 32) (s : State) :
    (takeFault c i w s).trace = s.trace := rfl
@[simp] theorem takeFault_draws (c : BitVec 4) (i w : BitVec 32) (s : State) :
    (takeFault c i w s).draws = s.draws := rfl
@[simp] theorem takeFault_drawCount (c : BitVec 4) (i w : BitVec 32) (s : State) :
    (takeFault c i w s).drawCount = s.drawCount := rfl
@[simp] theorem takeFault_drawBase (c : BitVec 4) (i w : BitVec 32) (s : State) :
    (takeFault c i w s).drawBase = s.drawBase := rfl

/-! ## Directions and latches -/

@[simp] theorem getLat_setDir (p : Pins) (r q : Role) (d : DirState) : getLat (setDir p r d) q = getLat p q := by
  cases r <;> cases q <;> rfl

@[simp] theorem getDir_setLat (p : Pins) (r q : Role) (l : LatState) : getDir (setLat p r l) q = getDir p q := by
  cases r <;> cases q <;> rfl

@[simp] theorem getDir_setDir (p : Pins) (r q : Role) (d : DirState) :
    getDir (setDir p r d) q = if q = r then d else getDir p q := by
  cases r <;> cases q <;> rfl

@[simp] theorem getLat_setLat (p : Pins) (r q : Role) (l : LatState) :
    getLat (setLat p r l) q = if q = r then l else getLat p q := by
  cases r <;> cases q <;> rfl

end Sys2Proof.Machine
end

