-- ==== Sys2Proof/Laws/Ops.lean ====
section
/-! SUPPORT. One lemma per shared operation that says everything it does. Every operation on the wire appends a list of
events and leaves the pins as replaying that list leaves them (`withEvents`). -/

namespace Sys2Proof.Machine

open Sys2Proof.Safety

/-- The state after the events `es`: they are appended to the trace and replayed on the pins. -/
def withEvents (es : List Event) (s : State) : State :=
  { s with pins := replay s.pins es, trace := s.trace ++ es }

theorem replay_append (p : Pins) (es fs : List Event) : replay p (es ++ fs) = replay (replay p es) fs := by
  simp [replay, List.foldl_append]

theorem replay_cons (p : Pins) (e : Event) (es : List Event) : replay p (e :: es) = replay (applyEvent p e) es := rfl

theorem replay_nil (p : Pins) : replay p [] = p := rfl

theorem withEvents_nil (s : State) : withEvents [] s = s := by simp [withEvents, replay]

theorem withEvents_withEvents (es fs : List Event) (s : State) :
    withEvents fs (withEvents es s) = withEvents (es ++ fs) s := by
  simp [withEvents, replay_append]

theorem pinDir_eq (r : Role) (d : Direction) (s : State) : pinDir r d s = withEvents [.dir r d] s := rfl

theorem pinWrite_eq (r : Role) (l : Level) (s : State) : pinWrite r l s = withEvents [.wr r l] s := rfl

theorem delay_eq (t : Nat) (s : State) : delay t s = withEvents [.dly t] s := rfl

theorem pulse_eq (s : State) : pulse s = withEvents pulseEvents s := by
  simp [pulse, pinWrite_eq, delay_eq, withEvents_withEvents, pulseEvents]

theorem configurePins_eq (s : State) :
    configurePins s =
      withEvents [.wr .ce .low, .dir .ce .output, .wr .clk .low, .dir .clk .output, .dir .dio .input] s := by
  simp [configurePins, pinDir_eq, pinWrite_eq, withEvents_withEvents]

theorem idlePins_eq (s : State) : idlePins s = withEvents [.wr .ce .low, .wr .clk .low, .dir .dio .input] s := by
  simp [idlePins, pinDir_eq, pinWrite_eq, withEvents_withEvents]

theorem closeSession_eq (s : State) : closeSession s = setSes .closed (withEvents closeEvents s) := by
  simp [closeSession, pinDir_eq, pinWrite_eq, withEvents_withEvents, closeEvents]

theorem range_eight : List.range 8 = [0, 1, 2, 3, 4, 5, 6, 7] := rfl

theorem transmitByte_eq (v : Byte) (s : State) : transmitByte v s = withEvents (sendEvents v) s := by
  simp [transmitByte, forBits, range_eight, transmitBit, pulse_eq, pinDir_eq, pinWrite_eq, withEvents_withEvents,
    sendEvents, pulseEvents]

theorem transmitBytes_eq (data : List Byte) (s : State) :
    transmitBytes data s = withEvents (data.flatMap sendEvents) s := by
  induction data generalizing s with
  | nil => simp [transmitBytes, withEvents_nil]
  | cons d data ih =>
    have h : transmitBytes (d :: data) s = transmitBytes data (transmitByte d s) := by
      simp only [transmitBytes, List.foldl_cons]
    rw [h, ih, transmitByte_eq, withEvents_withEvents, List.flatMap_cons]

/-! ## Reception -/

theorem drawAt_of_draws {s t : State} {n : Nat} (hd : t.draws = s.draws.drop n) (hc : t.drawCount = s.drawCount + n)
    (k : Nat) : drawAt t k = drawAt s (n + k) := by
  simp [drawAt, hd, hc, List.getD_eq_getElem?_getD, List.getElem?_drop, Nat.add_assoc]

/-- Eight bits written into a cleared accumulator, LSB first, give the byte of rule R162. -/
theorem setBits_eq_byteOf (l : Nat → Level) :
    (List.range 8).foldl (fun a i => setBit a i (bitOf (l i))) 0 = byteOf l := by
  simp only [range_eight, List.foldl_cons, List.foldl_nil, byteOf, List.map_cons, List.map_nil]
  generalize bitOf (l 0) = a; generalize bitOf (l 1) = b; generalize bitOf (l 2) = c; generalize bitOf (l 3) = d
  generalize bitOf (l 4) = e; generalize bitOf (l 5) = f; generalize bitOf (l 6) = g; generalize bitOf (l 7) = h
  revert a b c d e f g h
  decide +kernel

theorem receiveBit_eq (i : Nat) (s : State) :
    receiveBit i s =
      { s with
        pins := replay s.pins (.rd .dio (drawAt s 0) :: pulseEvents)
        trace := s.trace ++ .rd .dio (drawAt s 0) :: pulseEvents
        acc := setBit s.acc i (bitOf (drawAt s 0))
        draws := s.draws.tail
        drawCount := s.drawCount + 1 } := by
  simp [receiveBit, pinRead, pulse_eq, withEvents, afterRead, setAcc, replay_cons, applyEvent]

theorem receiveBits_eq (s : State) :
    receiveBits s =
      { withEvents (recvEvents (drawAt s)) s with
        acc := byteOf (drawAt s), draws := s.draws.drop 8, drawCount := s.drawCount + 8 } := by
  rw [← setBits_eq_byteOf]
  simp only [receiveBits, forBits, range_eight, List.foldl_cons, List.foldl_nil, receiveBit_eq, pinDir_eq]
  simp [withEvents, recvEvents, range_eight, setAcc, replay, pulseEvents, drawAt, List.getD_eq_getElem?_getD,
    ← List.drop_one, List.getElem?_drop, List.drop_drop, applyEvent]

theorem receiveByte_eq (s : State) :
    receiveByte s =
      { withEvents (recvEvents (drawAt s)) s with
        acc := byteOf (drawAt s), rx := s.rx ++ [byteOf (drawAt s)], draws := s.draws.drop 8,
        drawCount := s.drawCount + 8 } := by
  simp [receiveByte, receiveBits_eq, emit, withEvents]

theorem recvsEvents_succ (l : Nat → Level) (n : Nat) :
    recvsEvents l (n + 1) = recvEvents l ++ recvsEvents (fun k => l (8 + k)) n := by
  simp [recvsEvents, List.range_succ_eq_map, List.flatMap_map, Nat.mul_add, Nat.add_assoc, Nat.add_left_comm]

theorem bytesOf_succ (l : Nat → Level) (n : Nat) :
    bytesOf l (n + 1) = byteOf l :: bytesOf (fun k => l (8 + k)) n := by
  simp [bytesOf, List.range_succ_eq_map, List.map_map, Function.comp_def, Nat.mul_add, Nat.add_assoc, Nat.add_left_comm]

theorem bytesOf_length (l : Nat → Level) (n : Nat) : (bytesOf l n).length = n := by simp [bytesOf]

theorem receiveBytes_eq (n : Nat) (s : State) :
    receiveBytes n s =
      { withEvents (recvsEvents (drawAt s) n) s with
        acc := (bytesOf (drawAt s) n).getLastD s.acc
        rx := s.rx ++ bytesOf (drawAt s) n
        draws := s.draws.drop (8 * n)
        drawCount := s.drawCount + 8 * n } := by
  induction n generalizing s with
  | zero => simp [receiveBytes, recvsEvents, bytesOf, withEvents, replay]
  | succ n ih =>
    have hd : drawAt (receiveByte s) = fun k => drawAt s (8 + k) :=
      funext fun k => drawAt_of_draws (by rw [receiveByte_eq]) (by rw [receiveByte_eq]) k
    rw [receiveBytes, ih, hd, recvsEvents_succ, bytesOf_succ, receiveByte_eq]
    simp [withEvents, replay_append, Nat.mul_add, List.drop_drop, Nat.add_assoc, Nat.add_comm 8, List.getLast?_cons]

/-! ## Faults -/

theorem raise_eq (c : FaultCause) (s : State) : raise c s = withFault (causeCode c) s := rfl

/-- Everything the end-of-stream check can do (rule R245). -/
theorem endOfStream_cases (s : State) :
    (s.ses ≠ .closed ∧ endOfStream s = raiseAtEnd .sessionLeftOpen s) ∨
      (s.ses = .closed ∧ s.psActive = true ∧ endOfStream s = raiseAtEnd .pinSessionLeftActive s) ∨
      (s.ses = .closed ∧ s.psActive = false ∧ endOfStream s = s) := by
  unfold endOfStream
  by_cases h : s.ses = .closed <;> cases hp : s.psActive <;> simp [h]

/-! ## Fetching and stepping -/

theorem decode_cons_ne_endOfStream (w : Word) (rest : List Word) : decode (w :: rest) ≠ .endOfStream := by
  have hp : ∀ i, decodePlain i w rest ≠ .endOfStream := fun i => by unfold decodePlain; split <;> simp
  have hs : decodeSend w rest ≠ .endOfStream := by unfold decodeSend; split <;> simp
  have hx : decodeXfw w rest ≠ .endOfStream := by unfold decodeXfw; split <;> simp
  simp only [decode]
  split
  · simp
  · split <;> simp [hp, hs, hx]

theorem decodeAt_ne_endOfStream {S : List Word} {k : Nat} (h : k < S.length) : decodeAt S k ≠ .endOfStream := by
  rw [decodeAt, List.drop_eq_getElem_cons h]
  exact decode_cons_ne_endOfStream _ _

theorem fetch_tooLong {s : State} (h : 4294967296 ≤ s.stream.length) : fetch s = .tooLong := by simp [fetch, h]

theorem fetch_stopped {s : State} (h : s.stream.length < 4294967296) (hf : s.faultCode ≠ 0) : fetch s = .stopped := by
  simp only [fetch, Nat.not_le.mpr h, isFaulted, hf, if_false, ne_eq, not_false_eq_true, decide_true, if_true]

theorem fetch_command {s : State} (h : s.stream.length < 4294967296) (hf : s.faultCode = 0)
    (hc : s.cidx < s.stream.length) : fetch s = fetchCommand s := by
  simp [fetch, Nat.not_le.mpr h, isFaulted, hf, hc]

theorem fetch_ended {s : State} (h : s.stream.length < 4294967296) (hf : s.faultCode = 0)
    (hc : s.cidx = s.stream.length) : fetch s = .ended := by
  have h' : ¬ 4294967296 ≤ s.stream.length := Nat.not_le.mpr h
  simp [fetch, h', isFaulted, hf, hc]

theorem fetch_outside {s : State} (h : s.stream.length < 4294967296) (hf : s.faultCode = 0)
    (hc : s.stream.length < s.cidx) : fetch s = .outside := by
  have h1 : ¬ s.cidx < s.stream.length := by omega
  have h2 : ¬ s.cidx = s.stream.length := by omega
  simp [fetch, Nat.not_le.mpr h, isFaulted, hf, h1, h2]

theorem step_tooLong {s : State} (h : 4294967296 ≤ s.stream.length) : step s = .refused .streamTooLong := by
  rw [step, fetch_tooLong h]

theorem step_stopped {s : State} (h : s.stream.length < 4294967296) (hf : s.faultCode ≠ 0) : step s = .next s := by
  rw [step, fetch_stopped h hf]

theorem step_command {s : State} (h : s.stream.length < 4294967296) (hf : s.faultCode = 0)
    (hc : s.cidx < s.stream.length) {i : Instr} {rest : List Word} (hd : decodeAt s.stream s.cidx = .command i rest) :
    step s = exec i s := by
  rw [step, fetch_command h hf hc, fetchCommand, hd]

theorem step_illegal {s : State} (h : s.stream.length < 4294967296) (hf : s.faultCode = 0)
    (hc : s.cidx < s.stream.length) (hd : decodeAt s.stream s.cidx = .illegal) :
    step s = .next (raise .illegalCommand s) := by
  rw [step, fetch_command h hf hc, fetchCommand, hd]

theorem step_malformed {s : State} (h : s.stream.length < 4294967296) (hf : s.faultCode = 0)
    (hc : s.cidx < s.stream.length) (hd : decodeAt s.stream s.cidx = .malformed) :
    step s = .next (raise .malformedPayload s) := by
  rw [step, fetch_command h hf hc, fetchCommand, hd]

theorem step_ended {s : State} (h : s.stream.length < 4294967296) (hf : s.faultCode = 0)
    (hc : s.cidx = s.stream.length) : step s = .next (endOfStream s) := by
  rw [step, fetch_ended h hf hc]

theorem step_outside {s : State} (h : s.stream.length < 4294967296) (hf : s.faultCode = 0)
    (hc : s.stream.length < s.cidx) : step s = .fault .fetchOutsideStream := by
  rw [step, fetch_outside h hf hc]

/-- Everything a step can do where it answers a next state (rule R16, rule R223, rule R245). -/
theorem step_cases {s t : State} (h : step s = .next t) :
    s.stream.length < 4294967296 ∧
      ((s.faultCode ≠ 0 ∧ t = s) ∨
        (s.faultCode = 0 ∧ s.cidx < s.stream.length ∧
          ((∃ i rest, decodeAt s.stream s.cidx = .command i rest ∧ exec i s = .next t) ∨
            (decodeAt s.stream s.cidx = .illegal ∧ t = raise .illegalCommand s) ∨
            (decodeAt s.stream s.cidx = .malformed ∧ t = raise .malformedPayload s))) ∨
        (s.faultCode = 0 ∧ s.cidx = s.stream.length ∧ t = endOfStream s)) := by
  by_cases hl : 4294967296 ≤ s.stream.length
  · rw [step_tooLong hl] at h; cases h
  have hl := Nat.not_le.mp hl
  refine ⟨hl, ?_⟩
  by_cases hf : s.faultCode = 0
  · rcases Nat.lt_trichotomy s.cidx s.stream.length with hc | hc | hc
    · refine Or.inr (Or.inl ⟨hf, hc, ?_⟩)
      cases hx : decodeAt s.stream s.cidx with
      | command i rest => rw [step_command hl hf hc hx] at h; exact Or.inl ⟨i, rest, rfl, h⟩
      | illegal => rw [step_illegal hl hf hc hx] at h; cases h; exact Or.inr (Or.inl ⟨rfl, rfl⟩)
      | malformed => rw [step_malformed hl hf hc hx] at h; cases h; exact Or.inr (Or.inr ⟨rfl, rfl⟩)
      | endOfStream => exact absurd hx (decodeAt_ne_endOfStream hc)
    · rw [step_ended hl hf hc] at h; cases h; exact Or.inr (Or.inr ⟨hf, hc, rfl⟩)
    · rw [step_outside hl hf hc] at h; cases h
  · rw [step_stopped hl hf] at h; cases h; exact Or.inl ⟨hf, rfl⟩

end Sys2Proof.Machine
end

