-- ==== Sys2Proof/Laws/Exec.lean ====
section
/-! SUPPORT. Everything a command can do, once for all eight: where its conditions hold it has exactly the effect `effect`,
and where they do not it raises one of its faults. -/

namespace Sys2Proof.Machine

open Sys2Proof.Safety

/-- The conditions under which a command completes (rule R213 to rule R218, read the other way round). -/
def Runs (i : Instr) (s : State) : Prop :=
  match i with
  | .psb => s.psActive = false
  | .pse => s.psActive = true ∧ s.ses = .closed
  | .ceb => s.psActive = true ∧ s.ses = .closed
  | .cee => s.ses ≠ .closed ∧ s.ses ≠ .openEmpty
  | .send _ => s.ses ≠ .closed ∧ s.ses ≠ .reading
  | .recv => s.ses = .cmdSent ∨ s.ses = .reading
  | .xfw _ _ => s.psActive = true ∧ s.ses = .closed
  | .xfr _ _ => s.psActive = true ∧ s.ses = .closed

/-- The events a command appends, with the draws `l`. -/
def commandEvents (l : Nat → Level) : Instr → List Event
  | .psb => [.wr .ce .low, .dir .ce .output, .wr .clk .low, .dir .clk .output, .dir .dio .input]
  | .pse => [.wr .ce .low, .wr .clk .low, .dir .dio .input]
  | .ceb => [.wr .ce .high]
  | .cee => closeEvents
  | .send v => sendEvents v
  | .recv => recvEvents l
  | .xfw a data => xfwEvents a data
  | .xfr a n => xfrEvents a l n.toNat

/-- The phase after a command. -/
def phaseAfter (i : Instr) (p : Phase) : Phase :=
  match i with
  | .psb => p
  | .pse => p
  | .ceb => .openEmpty
  | .cee => .closed
  | .send _ => phaseAfterSend p
  | .recv => .reading
  | .xfw _ _ => .closed
  | .xfr _ _ => .closed

/-- `ps_active` after a command. -/
def psActiveAfter (i : Instr) (b : Bool) : Bool :=
  match i with
  | .psb => true
  | .pse => false
  | .ceb => b
  | .cee => b
  | .send _ => b
  | .recv => b
  | .xfw _ _ => b
  | .xfr _ _ => b

/-- The whole effect of a command that completes. -/
def effect (i : Instr) (s : State) : State :=
  { withEvents (commandEvents (drawAt s) i) s with
    cidx := s.cidx + i.words
    psActive := psActiveAfter i s.psActive
    ses := phaseAfter i s.ses
    acc := (bytesOf (drawAt s) (receivedBytes i)).getLastD s.acc
    rx := s.rx ++ bytesOf (drawAt s) (receivedBytes i)
    draws := s.draws.drop (8 * receivedBytes i)
    drawCount := s.drawCount + 8 * receivedBytes i }

/-! The fields of `effect`, so that no proof about a concrete command unfolds it. -/

@[simp] theorem effect_stream (i : Instr) (s : State) : (effect i s).stream = s.stream := rfl
@[simp] theorem effect_cidx (i : Instr) (s : State) : (effect i s).cidx = s.cidx + i.words := rfl
@[simp] theorem effect_pins (i : Instr) (s : State) :
    (effect i s).pins = replay s.pins (commandEvents (drawAt s) i) := rfl
@[simp] theorem effect_psActive (i : Instr) (s : State) : (effect i s).psActive = psActiveAfter i s.psActive := rfl
@[simp] theorem effect_ses (i : Instr) (s : State) : (effect i s).ses = phaseAfter i s.ses := rfl
@[simp] theorem effect_acc (i : Instr) (s : State) :
    (effect i s).acc = (bytesOf (drawAt s) (receivedBytes i)).getLastD s.acc := rfl
@[simp] theorem effect_rx (i : Instr) (s : State) :
    (effect i s).rx = s.rx ++ bytesOf (drawAt s) (receivedBytes i) := rfl
@[simp] theorem effect_faultCode (i : Instr) (s : State) : (effect i s).faultCode = s.faultCode := rfl
@[simp] theorem effect_faultIdx (i : Instr) (s : State) : (effect i s).faultIdx = s.faultIdx := rfl
@[simp] theorem effect_faultWord (i : Instr) (s : State) : (effect i s).faultWord = s.faultWord := rfl
@[simp] theorem effect_trace (i : Instr) (s : State) :
    (effect i s).trace = s.trace ++ commandEvents (drawAt s) i := rfl
@[simp] theorem effect_draws (i : Instr) (s : State) : (effect i s).draws = s.draws.drop (8 * receivedBytes i) := rfl
@[simp] theorem effect_drawCount (i : Instr) (s : State) :
    (effect i s).drawCount = s.drawCount + 8 * receivedBytes i := rfl
@[simp] theorem effect_drawBase (i : Instr) (s : State) : (effect i s).drawBase = s.drawBase := rfl

theorem bytesOf_zero (l : Nat → Level) : bytesOf l 0 = [] := rfl

theorem bytesOf_one (l : Nat → Level) : bytesOf l 1 = [byteOf l] := by simp [bytesOf]

theorem exec_psb {s : State} (h : Runs .psb s) : exec .psb s = .next (effect .psb s) := by
  have h : s.psActive = false := h
  simp [exec, execPsb, h, effect, configurePins_eq, advance, setPsActive, withEvents, commandEvents, receivedBytes,
    bytesOf_zero, phaseAfter, psActiveAfter, Instr.words]

theorem exec_pse {s : State} (h : Runs .pse s) : exec .pse s = .next (effect .pse s) := by
  obtain ⟨hp, hc⟩ := h
  simp [exec, execPse, hp, hc, effect, idlePins_eq, advance, setPsActive, withEvents, commandEvents, receivedBytes,
    bytesOf_zero, phaseAfter, psActiveAfter, Instr.words]

theorem exec_ceb {s : State} (h : Runs .ceb s) : exec .ceb s = .next (effect .ceb s) := by
  obtain ⟨hp, hc⟩ := h
  simp [exec, execCeb, hp, hc, effect, pinWrite_eq, advance, setSes, withEvents, commandEvents, receivedBytes,
    bytesOf_zero, phaseAfter, psActiveAfter, Instr.words]

theorem exec_cee {s : State} (h : Runs .cee s) : exec .cee s = .next (effect .cee s) := by
  obtain ⟨h1, h2⟩ := h
  simp [exec, execCee, h1, h2, effect, closeSession_eq, advance, setSes, withEvents, commandEvents, receivedBytes,
    bytesOf_zero, phaseAfter, psActiveAfter, Instr.words]

theorem exec_send {v : Byte} {s : State} (h : Runs (.send v) s) : exec (.send v) s = .next (effect (.send v) s) := by
  obtain ⟨h1, h2⟩ := h
  simp [exec, execSend, h1, h2, effect, transmitByte_eq, advance, setSes, withEvents, commandEvents, receivedBytes,
    bytesOf_zero, phaseAfter, psActiveAfter, Instr.words]

theorem exec_recv {s : State} (h : Runs .recv s) : exec .recv s = .next (effect .recv s) := by
  have h1 : s.ses ≠ .closed := by rcases h with h | h <;> rw [h] <;> decide
  have h2 : s.ses ≠ .openEmpty := by rcases h with h | h <;> rw [h] <;> decide
  have h3 : s.ses ≠ .writing := by rcases h with h | h <;> rw [h] <;> decide
  simp [exec, execRecv, h1, h2, h3, effect, receiveByte_eq, advance, setSes, withEvents, commandEvents, receivedBytes,
    bytesOf_one, phaseAfter, psActiveAfter, Instr.words]

theorem exec_xfw {a : Byte} {data : List Byte} {s : State} (h : Runs (.xfw a data) s) :
    exec (.xfw a data) s = .next (effect (.xfw a data) s) := by
  obtain ⟨hp, hc⟩ := h
  have he : transmitBytes data (transmitByte a (pinWrite .ce .high s)) =
      withEvents (.wr .ce .high :: (sendEvents a ++ data.flatMap sendEvents)) s := by
    simp [transmitByte_eq, transmitBytes_eq, pinWrite_eq, withEvents_withEvents]
  simp only [exec, execXfw, hp, hc, he, closeSession_eq, withEvents_withEvents]
  simp [effect, advance, setSes, withEvents, commandEvents, receivedBytes, bytesOf_zero, phaseAfter, psActiveAfter,
    Instr.words, xfwEvents, hp]

theorem drawAt_withEvents (es : List Event) (s : State) : drawAt (withEvents es s) = drawAt s := rfl

theorem exec_xfr {a : Byte} {n : BitVec 8} {s : State} (h : Runs (.xfr a n) s) :
    exec (.xfr a n) s = .next (effect (.xfr a n) s) := by
  obtain ⟨hp, hc⟩ := h
  have he : pinDir .dio .input (transmitByte a (pinWrite .ce .high s)) =
      withEvents (.wr .ce .high :: (sendEvents a ++ [.dir .dio .input])) s := by
    simp [transmitByte_eq, pinDir_eq, pinWrite_eq, withEvents_withEvents]
  simp only [exec, execXfr, hp, hc, he, closeSession_eq, receiveBytes_eq, drawAt_withEvents]
  simp [effect, advance, setSes, withEvents, commandEvents, receivedBytes, phaseAfter, psActiveAfter, Instr.words,
    xfrEvents, hp, replay_append, replay_cons, replay_nil]

/-- A command whose conditions hold completes, with exactly its effect. -/
theorem exec_of_runs {i : Instr} {s : State} (h : Runs i s) : exec i s = .next (effect i s) := by
  cases i with
  | psb => exact exec_psb h
  | pse => exact exec_pse h
  | ceb => exact exec_ceb h
  | cee => exact exec_cee h
  | send v => exact exec_send h
  | recv => exact exec_recv h
  | xfw a data => exact exec_xfw h
  | xfr a n => exact exec_xfr h

/-- A command whose conditions do not hold raises the first fault condition that does (rule R221). -/
theorem exec_of_not_runs {i : Instr} {s : State} (h : ¬ Runs i s) :
    ∃ c, (faultConditions i s).find? (fun c => c.2) = some (causeCode c, true) ∧ exec i s = .next (raise c s) := by
  cases i <;> cases hp : s.psActive <;> cases hc : s.ses <;> simp [Runs, hp, hc] at h <;>
    simp only [exec, execPsb, execPse, execCeb, execCee, execSend, execRecv, execXfw, execXfr, faultConditions, hp, hc] <;>
    exact ⟨_, rfl, rfl⟩

/-- Everything a command can do. -/
theorem exec_cases {i : Instr} {s t : State} (h : exec i s = .next t) :
    (Runs i s ∧ t = effect i s) ∨
      ¬ Runs i s ∧ ∃ c, (faultConditions i s).find? (fun c => c.2) = some (causeCode c, true) ∧ t = raise c s := by
  by_cases hr : Runs i s
  · rw [exec_of_runs hr] at h; cases h; exact Or.inl ⟨hr, rfl⟩
  · obtain ⟨c, hc, he⟩ := exec_of_not_runs hr
    rw [he] at h; cases h; exact Or.inr ⟨hr, c, hc, rfl⟩

theorem causeCode_ne_zero (c : FaultCause) : causeCode c ≠ 0 := by cases c <;> decide

/-! A list of commands: the head completes with its effect and the rest goes on from there, or it ends the list. -/

theorem runAll_of_runs {i : Instr} {is : List Instr} {s : State} (h : Runs i s) (hf : s.faultCode = 0) :
    runAll (i :: is) s = runAll is (effect i s) := by
  simp only [runAll, exec_of_runs h, effect_faultCode, hf, if_true]

theorem runAll_of_not_runs {i : Instr} {is : List Instr} {s : State} (h : ¬ Runs i s) : runAll (i :: is) s = none := by
  obtain ⟨c, _, he⟩ := exec_of_not_runs h
  simp only [runAll, he]
  exact if_neg (causeCode_ne_zero c)

end Sys2Proof.Machine
end

