-- ==== Sys2Proof/Laws/Fetch.lean ====
section
/-! SUPPORT. Placing an instruction at the fetch position: the next step runs it. -/

namespace Sys2Proof.Machine

open Sys2Proof.Safety

theorem placeWords_stream (ws : List Word) (s : State) :
    (placeWords ws s).stream = (List.range s.cidx).map (wordAt s) ++ ws := rfl

@[simp] theorem placeWords_cidx (ws : List Word) (s : State) : (placeWords ws s).cidx = s.cidx := rfl

@[simp] theorem placeWords_faultCode (ws : List Word) (s : State) : (placeWords ws s).faultCode = 0 := rfl

@[simp] theorem placeWords_stream_length (ws : List Word) (s : State) :
    (placeWords ws s).stream.length = s.cidx + ws.length := by simp [placeWords_stream]

/-- The decoder at the fetch position reads the words placed there. -/
theorem decodeAt_placeWords (ws : List Word) (s : State) :
    decodeAt (placeWords ws s).stream (placeWords ws s).cidx = decode ws := by
  rw [decodeAt, placeWords_stream, placeWords_cidx]
  exact congrArg decode (List.drop_left' (by simp))

/-- The words of a table word decode where `decodeTableWord` says so. -/
theorem decode_of_decodeTableWord {nbits w : Nat} {i : Instr} (h : decodeTableWord nbits w = some i) :
    ∃ rest, decode (tableWords nbits w) = .command i rest := by
  unfold decodeTableWord at h
  split at h
  · rename_i j rest hd
    cases h
    exact ⟨rest, hd⟩
  · cases h
  · cases h
  · cases h

/-- A step of `s.withFetchWord nbits w` runs exactly the command that `decodeTableWord nbits w` names. -/
theorem step_withFetchWord {s : State} {nbits w : Nat} {i : Instr} (h : decodeTableWord nbits w = some i)
    (hl : s.cidx + (tableWords nbits w).length < 4294967296) :
    step (s.withFetchWord nbits w) = exec i (s.withFetchWord nbits w) := by
  obtain ⟨rest, hd⟩ := decode_of_decodeTableWord h
  have hw : (tableWords nbits w).length ≠ 0 := by
    intro h0
    rw [List.length_eq_zero_iff.mp h0] at hd
    cases hd
  refine step_command ?_ rfl ?_ ((decodeAt_placeWords _ _).trans hd)
  · exact (placeWords_stream_length _ _).symm ▸ hl
  · have := placeWords_stream_length (tableWords nbits w) s
    have hc := placeWords_cidx (tableWords nbits w) s
    simp only [State.withFetchWord]
    omega

end Sys2Proof.Machine
end

