-- ==== Sys2Proof/Laws/PerInstr.lean ====
section
/-! SUPPORT. Per-command facts about the syntax: a command's encoding has its length in words (rule R84). -/

namespace Sys2Proof.Laws.EncodeLength

/-- "An XFW command occupies `1 + cnt` words; every other command occupies 1 word" (rule R84). -/
def Statement (i : Sys2Proof.Instr) : Prop := (Sys2Proof.encode i).length = i.words

theorem psb : Statement .psb := rfl

theorem pse : Statement .pse := rfl

theorem ceb : Statement .ceb := rfl

theorem cee : Statement .cee := rfl

theorem send (v : Sys2Proof.Byte) : Statement (.send v) := rfl

theorem recv : Statement .recv := rfl

theorem xfw (a : Sys2Proof.Byte) (data : List Sys2Proof.Byte) : Statement (.xfw a data) := by
  simp [Statement, Sys2Proof.encode, Sys2Proof.Instr.words, Nat.add_comm]

theorem xfr (a : Sys2Proof.Byte) (n : BitVec 8) : Statement (.xfr a n) := rfl

end Sys2Proof.Laws.EncodeLength
end

