-- ==== Sys2Proof/Laws/Wire.lean ====
section
/-! SUPPORT. What the event lists of the rules leave on the pins, and the events a command or a fault appends. -/

namespace Sys2Proof.Machine

open Sys2Proof.Safety

theorem replay_sendEvents (p : Pins) (v : Byte) :
    replay p (sendEvents v) =
      { p with dirDio := .known .output, latDio := .known (lvl (v.getLsbD 7)), latClk := .known .low } := by
  simp [sendEvents, range_eight, pulseEvents, replay, applyEvent, setDir, setLat]

theorem replay_recvEvents (p : Pins) (l : Nat → Level) :
    replay p (recvEvents l) = { p with dirDio := .known .input, latClk := .known .low } := by
  simp [recvEvents, range_eight, pulseEvents, replay, applyEvent, setDir, setLat]

theorem replay_sends (p : Pins) (a : Byte) (data : List Byte) :
    replay p (sendEvents a ++ data.flatMap sendEvents) =
      { p with
        dirDio := .known .output, latDio := .known (lvl ((data.getLastD a).getLsbD 7)), latClk := .known .low } := by
  induction data generalizing a p with
  | nil => simp [replay_sendEvents]
  | cons d data ih => rw [List.flatMap_cons, replay_append, ih, replay_sendEvents, List.getLastD_cons]

theorem replay_recvs {p : Pins} (l : Nat → Level) (n : Nat) (hd : p.dirDio = .known .input)
    (hc : p.latClk = .known .low) : replay p (recvsEvents l n) = p := by
  induction n generalizing l with
  | zero => rfl
  | succ n ih =>
    rw [recvsEvents_succ, replay_append, replay_recvEvents]
    cases p
    simp only at hd hc
    subst hd hc
    exact ih _

theorem replay_xfwEvents (p : Pins) (a : Byte) (data : List Byte) :
    replay p (xfwEvents a data) =
      { p with
        dirDio := .known .input, latCe := .known .low, latClk := .known .low,
        latDio := .known (lvl ((data.getLastD a).getLsbD 7)) } := by
  rw [xfwEvents, replay_cons, replay_append, replay_sends]; rfl

theorem replay_xfrEvents (p : Pins) (a : Byte) (l : Nat → Level) (n : Nat) :
    replay p (xfrEvents a l n) =
      { p with
        dirDio := .known .input, latCe := .known .low, latClk := .known .low,
        latDio := .known (lvl (a.getLsbD 7)) } := by
  rw [xfrEvents, replay_cons, List.append_assoc, replay_append, replay_sendEvents, List.cons_append, replay_cons,
    replay_append, replay_recvs _ _ rfl rfl]; rfl

theorem newEvents_of_same_trace {s t : State} (h : t.trace = s.trace) : newEvents s t = [] := by simp [newEvents, h]

theorem newEvents_raise (c : FaultCause) (s : State) : newEvents s (raise c s) = [] := newEvents_of_same_trace rfl

theorem newEvents_effect (i : Instr) (s : State) : newEvents s (effect i s) = commandEvents (drawAt s) i := by
  simp [newEvents, effect, withEvents]

/-- A command that completes has exactly its effect, and its conditions held. -/
theorem completes_iff {i : Instr} {s t : State} :
    Completes i s t ↔ Runs i s ∧ s.faultCode = 0 ∧ t = effect i s := by
  constructor
  · rintro ⟨h, hs, ht⟩
    rcases exec_cases h with ⟨hr, rfl⟩ | ⟨_, c, _, rfl⟩
    · exact ⟨hr, hs, rfl⟩
    · exact absurd ht (causeCode_ne_zero c)
  · rintro ⟨hr, hs, rfl⟩
    exact ⟨exec_of_runs hr, hs, hs⟩

end Sys2Proof.Machine
end

