-- ==== Sys2Proof/Tests/Slice0.lean ====
section
/-! SUPPORT. Small tests. Expected values come from spec/95_test_vectors.md (its tables V1 to V9 and examples E1 to E11) and
from the rules named; `witness_...` theorems show that the hypotheses of an obligation can hold together. -/

namespace Sys2Proof.Tests

open Sys2Proof Sys2Proof.Machine Sys2Proof.Safety

/-! ## Helpers -/

/-- The pins after `PSB` from reset (V2), with the chip-enable latch of an open session where `ce` is High. -/
def configured (ce : Level) (dio : Direction) : Pins where
  dirClk := .known .output
  dirCe := .known .output
  dirDio := .known dio
  latClk := .known .low
  latCe := .known ce
  latDio := .unknown

/-- A block in an active pin session, closed and idle. -/
def ready : State := { State.reset with psActive := true, pins := configured .low .input }

/-- A block with an open session in the phase `p`. -/
def openIn (p : Phase) : State :=
  { State.reset with psActive := true, ses := p, pins := configured .high (muxDirection p) }

/-- The next state of an outcome. -/
def nextOf : Host.Outcome State Fault Refusal → Option State
  | .next t => some t
  | .fault _ => none
  | .refused _ => none

/-- STATUS after an outcome. -/
def statusOf (o : Host.Outcome State Fault Refusal) : Option Word := (nextOf o).map statusWord

/-- A step after reset with the given stream. -/
def firstStep (stream : List Word) : Host.Outcome State Fault Refusal := step (start stream [])

/-! ## Well-formedness: the one check, and a term it refuses -/

theorem test_xfw_256_bytes_ill_formed : (Instr.xfw 0xFE (List.replicate 256 0)).wellFormed = false := by
  rw [Instr.wellFormed, decide_eq_false_iff_not, List.length_replicate]; omega

theorem test_xfw_255_bytes_well_formed : (Instr.xfw 0xFE (List.replicate 255 0)).wellFormed = true := by
  rw [Instr.wellFormed, decide_eq_true_iff, List.length_replicate]

/-! ## Decoding: words written out from rule R85 and V1 -/

theorem test_decode_psb : decode [0x10000000] = .command .psb [] := by decide
theorem test_decode_pse : decode [0x20000000] = .command .pse [] := by decide
theorem test_decode_ceb : decode [0x30000000] = .command .ceb [] := by decide
theorem test_decode_cee : decode [0x40000000] = .command .cee [] := by decide
theorem test_decode_send : decode [0x50000080] = .command (.send 0x80) [] := by decide
theorem test_decode_recv : decode [0x60000000] = .command .recv [] := by decide
theorem test_decode_xfw :
    decode [0x700001C0, 0x00000001, 0x20000000] = .command (.xfw 0xC0 [0x01]) [0x20000000] := by decide
theorem test_decode_xfr : decode [0x800001C1] = .command (.xfr 0xC1 1) [] := by decide
/-- The bits of `XFR 0xBF, 8` one by one: op 1000, rsv 0, cnt 0000 1000, imm 1011 1111. -/
theorem test_decode_bits : decode [0b10000000000000000000100010111111] = .command (.xfr 0xBF 8) [] := by decide
theorem test_decode_illegal :
    ([0x00000000, 0x90000000, 0xF0000000, 0x10000001, 0x30010000, 0x50010000, 0x600000FF, 0x50000100] : List Word).all
      (fun w => decode [w] == .illegal) = true := by decide
theorem test_decode_malformed :
    decode [0x700001C0] = .malformed ∧ decode [0x700001C0, 0x00000100] = .malformed ∧
      decode [0x700002C0, 0x00000001] = .malformed := by decide
theorem test_encode :
    encode (.xfw 0xC0 [0x2A]) = [0x700001C0, 0x0000002A] ∧ encode (.xfr 0xFF 31) = [0x80001FFF] ∧
      encode (.send 0xA5) = [0x500000A5] := by decide

/-! ## The assembler (rule R92, rule R93; P1) -/

theorem test_assemble_text :
    assembleText "PSB ; 0x10000000\nWR1 0xC0, 0x2A\nRD1 0xC1\n\n PSE".toList =
      some [0x10000000, 0x700001C0, 0x0000002A, 0x800001C1, 0x20000000] := by decide
theorem test_assemble_braces :
    assembleTextLine (['X', 'F', 'W', ' ', '1', '9', '2', ',', Char.ofNat 123, '1', ',', ' ', '0', 'x', 'F', 'F',
      Char.ofNat 125]) = some [0x700002C0, 0x00000001, 0x000000FF] := by decide
theorem test_assemble_empty_braces :
    assembleTextLine (['X', 'F', 'W', ' ', '0', 'x', 'C', '0', ',', ' ', Char.ofNat 123, Char.ofNat 125]) =
      some [0x700000C0] := by decide
theorem test_assemble_refuses :
    assembleTextLine "SEND 256".toList = none ∧ assembleTextLine "XFR 0, 256".toList = none ∧
      assembleTextLine "NOP".toList = none := by decide

/-! ## The host's probes -/

theorem test_table_word_xfw : decodeTableWord 32 0x700002C0 = some (.xfw 0xC0 [0, 0]) := by decide
theorem test_table_word_xfw_two_words : decodeTableWord 64 0x00000001700001C0 = some (.xfw 0xC0 [1]) := by decide
theorem test_table_word_illegal : decodeTableWord 32 0 = none := by decide
theorem test_fetch_word_psb : statusOf (step (State.reset.withFetchWord 32 0x10000000)) = some 0x00000001 := by decide
theorem test_fetch_word_xfw : statusOf (step (ready.withFetchWord 32 0x700002C0)) = some 0x00000001 := by decide

/-! ## One step of each command -/

/-- V2: the pins after PSB; the DIO latch is still Unknown. -/
theorem test_psb_pins : (nextOf (exec .psb State.reset)).map (fun t => t.pins) = some (configured .low .input) := by
  decide
/-- V2: `PSB; PSB`. -/
theorem test_psb_twice : statusOf (exec .psb ready) = some 0x00000311 := by decide
/-- V1: PSE first. -/
theorem test_pse_first : statusOf (firstStep [0x20000000]) = some 0x00000310 := by decide
/-- E8: the three events of PSE. -/
theorem test_pse_events : (nextOf (exec .pse ready)).map (fun t => t.trace) =
    some [.wr .ce .low, .wr .clk .low, .dir .dio .input] := by decide
/-- Rule R140's example. -/
theorem test_ceb_status : statusOf (exec .ceb ready) = some 0x00000003 := by decide
/-- V3: `PSB; CEB; CEB`. -/
theorem test_ceb_twice : statusOf (exec .ceb (openIn .openEmpty)) = some 0x00000513 := by decide
/-- Rule R141's example. -/
theorem test_cee_status : statusOf (exec .cee (openIn .cmdSent)) = some 0x00000001 := by decide
/-- V3: `PSB; CEB; CEE`. -/
theorem test_cee_no_command_byte : statusOf (exec .cee (openIn .openEmpty)) = some 0x00000713 := by decide
/-- E1: the DIO levels of `SEND 0xA5`. -/
theorem test_send_levels : (nextOf (exec (.send 0xA5) (openIn .openEmpty))).map (fun t => t.trace.filterMap dioWrite) =
    some [.high, .low, .high, .low, .low, .high, .low, .high] := by decide
/-- V5: the phases; `lat[DIO]` after `SEND 0x80` is High. -/
theorem test_send_status :
    statusOf (exec (.send 0x80) (openIn .openEmpty)) = some 0x00000005 ∧
      statusOf (exec (.send 0x80) (openIn .cmdSent)) = some 0x00000007 ∧
      (nextOf (exec (.send 0x80) (openIn .openEmpty))).map (fun t => t.pins.latDio) = some (.known .high) := by decide
/-- V6: draws H H L L L L L L give 0x03. -/
theorem test_recv_byte :
    (nextOf (exec .recv { openIn .cmdSent with
      draws := [.high, .high, .low, .low, .low, .low, .low, .low], acc := 0xFF })).map
        (fun t => (t.rx, statusWord t)) = some ([0x03], 0x00000009) := by decide
/-- V4: RECV in a write session. -/
theorem test_recv_mixed : statusOf (exec .recv (openIn .writing)) = some 0x00000817 := by decide
/-- V7: the trace of `XFW 0xC0, (0x01)` without its delays, the middle read through its DIO writes. -/
theorem test_xfw_trace :
    (nextOf (exec (.xfw 0xC0 [0x01]) ready)).map (fun t => (t.trace.length, (t.trace.filter notDelay).length, t.cidx,
      t.trace.filterMap dioWrite)) =
    some (85, 53, 2, [.low, .low, .low, .low, .low, .low, .high, .high,
      .high, .low, .low, .low, .low, .low, .low, .low]) := by decide
/-- V1: XFW after reset. -/
theorem test_xfw_first :
    (nextOf (firstStep [0x700001C0, 0x00000001])).map (fun t => (statusWord t, t.faultWord)) =
      some (0x00000410, 0x700001C0) := by decide
/-- V7: `XFR 0xC1, 1` with draws L H L H L H L L. -/
theorem test_xfr_byte :
    (nextOf (exec (.xfr 0xC1 1) { ready with draws := [.low, .high, .low, .high, .low, .high, .low, .low] })).map
      (fun t => (t.rx, t.trace.length, statusWord t)) = some ([0x2A], 86, 0x00000001) := by decide
/-- V7: `XFR 0xC1, 0` appends 45 events and receives nothing; `lat[DIO]` ends High. -/
theorem test_xfr_no_bytes :
    (nextOf (exec (.xfr 0xC1 0) ready)).map (fun t => (t.rx, t.trace.length, t.pins.latDio)) =
      some ([], 45, .known .high) := by decide

/-! ## Faults and the end of the stream (V1, V8, V9) -/

theorem test_illegal_beats_code_4 : statusOf (firstStep [0x30010000]) = some 0x00000110 := by decide
theorem test_malformed_beats_code_4 : statusOf (firstStep [0x700001C0, 0x00000100]) = some 0x00000210 := by decide
theorem test_fault_registers :
    (nextOf (step { ready with stream := [0x10000000, 0x700002C0, 0x00000001], cidx := 1 })).map
      (fun t => (statusWord t, t.faultIdx, t.faultWord, t.cidx)) = some (0x00000211, 1, 0x700002C0, 1) := by decide
theorem test_left_open :
    (nextOf (step { openIn .cmdSent with stream := [0x10000000, 0x30000000, 0x500000C1], cidx := 3 })).map
      (fun t => (statusWord t, t.faultIdx, t.faultWord)) = some (0x00000915, 3, 0) := by decide
theorem test_left_active :
    (nextOf (step { ready with stream := [0x10000000], cidx := 1 })).map
      (fun t => (statusWord t, t.faultIdx, t.faultWord)) = some (0x00000A11, 1, 0) := by decide
theorem test_empty_stream_complete : step State.reset = .next State.reset := rfl

/-! ## Witnesses: the hypotheses of the obligations can hold -/

theorem witness_DecodeOfEncode : (Instr.xfw 0xC0 (List.replicate 255 0xFF)).wellFormed = true := by
  rw [Instr.wellFormed, decide_eq_true_iff, List.length_replicate]

theorem witness_EncodeOfDecode :
    decode [0x700001C0, 0x000000FF, 0x20000000] = .command (.xfw 0xC0 [0xFF]) [0x20000000] := by decide

theorem witness_OpcodeRowsSelect :
    decode [0x50000080, 7] = .command (.send 0x80) [7] ∧ decode [0x7000FFFF] = .malformed ∧
      decode [0x8000FFFF] = .command (.xfr 0xFF 255) [] := by decide

/-- Each cause of an illegal word at a boundary of its range, and the legal words next to them. -/
theorem witness_IllegalWordsFault :
    (StreamFits (start [0x0FFF0000] []) ∧ (start [0x0FFF0000] []).faultCode = 0 ∧
      (start [0x0FFF0000] []).cidx < (start [0x0FFF0000] []).stream.length ∧
      IllegalWord ((start [0x0FFF0000] []).stream.getD (start [0x0FFF0000] []).cidx 0)) ∧
    IllegalWord 0x90000000 ∧ IllegalWord 0xFFFFFFFF ∧ IllegalWord 0x80010000 ∧ IllegalWord 0x88000000 ∧
    IllegalWord 0x10000001 ∧ IllegalWord 0x60000100 ∧ IllegalWord 0x50000100 ∧
    ¬ IllegalWord 0x10000000 ∧ ¬ IllegalWord 0x500000FF ∧ ¬ IllegalWord 0x8000FFFF := by
  simp [StreamFits, IllegalWord, start, State.reset]

/-- A payload that is one word short, and one with a non-zero high bit; both at the first word of a stream. -/
theorem witness_MalformedPayloadsFault :
    (StreamFits (start [0x700002C0, 0x000000FF] []) ∧ (start [0x700002C0, 0x000000FF] []).faultCode = 0 ∧
      (start [0x700002C0, 0x000000FF] []).cidx < (start [0x700002C0, 0x000000FF] []).stream.length ∧
      MalformedAt (start [0x700002C0, 0x000000FF] []).stream (start [0x700002C0, 0x000000FF] []).cidx) ∧
    MalformedAt [0x700001C0, 0x00000100] 0 ∧ ¬ MalformedAt [0x700001C0, 0x000000FF] 0 ∧
    ¬ MalformedAt [0x700000C0] 0 := by
  refine ⟨?_, ⟨?_, ?_, Or.inr ⟨1, ?_⟩⟩, ?_, ?_⟩ <;>
    simp [StreamFits, MalformedAt, IllegalWord, start, State.reset]
  intro j h1 h2
  obtain rfl : j = 1 := by omega
  simp

theorem witness_StepRunsDecodedCommand :
    StreamFits (start [0x10000000, 0x20000000] []) ∧ (start [0x10000000, 0x20000000] []).faultCode = 0 ∧
      (start [0x10000000, 0x20000000] []).cidx < (start [0x10000000, 0x20000000] []).stream.length ∧
      decodeAt (start [0x10000000, 0x20000000] []).stream (start [0x10000000, 0x20000000] []).cidx =
        .command .psb [0x20000000] := by
  refine ⟨?_, ?_⟩
  · simp [StreamFits, start]
  · decide

/-- A stream at the bound, and one just below it with the index at its end. -/
theorem witness_LongStreamRefused :
    2 ^ 32 ≤ { State.reset with stream := List.replicate (2 ^ 32) 0 }.stream.length ∧
      { State.reset with stream := List.replicate (2 ^ 32 - 1) 0, cidx := 2 ^ 32 - 1 }.stream.length < 2 ^ 32 ∧
      { State.reset with stream := List.replicate (2 ^ 32 - 1) 0, cidx := 2 ^ 32 - 1 }.cidx ≤
        { State.reset with stream := List.replicate (2 ^ 32 - 1) 0, cidx := 2 ^ 32 - 1 }.stream.length := by
  simp only [List.length_replicate]
  omega

/-- A step that completes its command, and one that faults. -/
theorem witness_CidxAdvancesByLength :
    (∃ t, (start [0x10000000] []).faultCode = 0 ∧
      (start [0x10000000] []).cidx < (start [0x10000000] []).stream.length ∧
      step (start [0x10000000] []) = .next t ∧ t.faultCode = 0) ∧
    (∃ t, (start [0x20000000] []).faultCode = 0 ∧
      (start [0x20000000] []).cidx < (start [0x20000000] []).stream.length ∧
      step (start [0x20000000] []) = .next t ∧ t.faultCode ≠ 0) :=
  ⟨⟨_, rfl, by decide, rfl, rfl⟩, ⟨_, rfl, by decide, rfl, by decide⟩⟩

theorem witness_StreamIsImmutable : ∃ t, step (start [0x10000000] []) = .next t := ⟨_, rfl⟩

theorem witness_TraceOnlyGrows :
    (∃ t, step (start [0x10000000] []) = .next t ∧ newEvents (start [0x10000000] []) t ≠ []) ∧
      ∃ t, step (start [0x20000000] []) = .next t ∧ t.faultCode ≠ 0 :=
  ⟨⟨_, rfl, by decide⟩, ⟨_, rfl, by decide⟩⟩

theorem witness_PsbConfiguresPins : ready.psActive = true ∧ State.reset.psActive = false := by decide

theorem witness_PseIdlesPins :
    State.reset.psActive = false ∧ (openIn .reading).ses ≠ .closed ∧ ready.psActive = true ∧ ready.ses = .closed ∧
      Idle ready.pins ∧ ∃ t, exec .pse ready = .next t :=
  ⟨rfl, by decide, rfl, rfl, by simp [ready, Idle, configured], _, rfl⟩

theorem witness_CebOpensSession :
    State.reset.psActive = false ∧ ((openIn .openEmpty).psActive = true ∧ (openIn .openEmpty).ses ≠ .closed) ∧
      ready.psActive = true ∧ ready.ses = .closed := by decide

theorem witness_CeeClosesSession :
    State.reset.ses = .closed ∧ (openIn .openEmpty).ses = .openEmpty ∧
      (openIn .cmdSent).ses ≠ .closed ∧ (openIn .cmdSent).ses ≠ .openEmpty := by decide

theorem witness_SendTransmitsByte :
    State.reset.ses = .closed ∧ (openIn .reading).ses = .reading ∧
      (openIn .openEmpty).ses ≠ .closed ∧ (openIn .openEmpty).ses ≠ .reading := by decide

theorem witness_RecvReceivesByte :
    State.reset.ses = .closed ∧ (openIn .openEmpty).ses = .openEmpty ∧ (openIn .writing).ses = .writing ∧
      (openIn .cmdSent).ses = .cmdSent ∧ (openIn .reading).ses = .reading := by decide

theorem witness_XfwWritesOneSession :
    (List.replicate 255 (0 : Byte)).length ≤ 255 ∧ State.reset.psActive = false ∧
      ((openIn .cmdSent).psActive = true ∧ (openIn .cmdSent).ses ≠ .closed) ∧
      ready.psActive = true ∧ ready.ses = .closed := by
  refine ⟨by rw [List.length_replicate], by decide⟩

theorem witness_XfrReadsOneSession :
    State.reset.psActive = false ∧ ((openIn .cmdSent).psActive = true ∧ (openIn .cmdSent).ses ≠ .closed) ∧
      ready.psActive = true ∧ ready.ses = .closed := by decide

/-- Each code 3 to 8 is some command's first condition, and none holds where a command completes. -/
theorem witness_FaultConditionsDecide :
    (faultConditions .psb ready).find? (fun c => c.2) = some (3, true) ∧
      (faultConditions (.xfw 0xC0 [1]) State.reset).find? (fun c => c.2) = some (4, true) ∧
      (faultConditions .ceb (openIn .writing)).find? (fun c => c.2) = some (5, true) ∧
      (faultConditions .cee State.reset).find? (fun c => c.2) = some (6, true) ∧
      (faultConditions .recv (openIn .openEmpty)).find? (fun c => c.2) = some (7, true) ∧
      (faultConditions (.send 0) (openIn .reading)).find? (fun c => c.2) = some (8, true) ∧
      (faultConditions .psb State.reset).find? (fun c => c.2) = none := by decide

/-- A command's fault, and a fault at the end of the stream. -/
theorem witness_FaultEntryChangesNothingElse :
    (∃ t, (start [0x60000000] []).faultCode = 0 ∧ step (start [0x60000000] []) = .next t ∧ t.faultCode ≠ 0) ∧
      ∃ t, ready.faultCode = 0 ∧ step ready = .next t ∧ t.faultCode ≠ 0 :=
  ⟨⟨_, rfl, rfl, by decide⟩, ⟨_, rfl, rfl, by decide⟩⟩

theorem witness_FaultIsSticky :
    StreamFits { State.reset with faultCode := 8 } ∧ { State.reset with faultCode := 8 }.faultCode ≠ 0 := by
  simp [StreamFits, State.reset]

theorem witness_SessionLeftOpenFaults :
    StreamFits (openIn .openEmpty) ∧ (openIn .openEmpty).faultCode = 0 ∧
      (openIn .openEmpty).cidx = (openIn .openEmpty).stream.length ∧ (openIn .openEmpty).ses ≠ .closed := by
  simp [StreamFits, openIn, State.reset]

theorem witness_PinSessionLeftActiveFaults :
    (StreamFits ready ∧ ready.faultCode = 0 ∧ ready.cidx = ready.stream.length ∧ ready.ses = .closed ∧
      ready.psActive = true) ∧
    ∃ t, step ready = .next t ∧ t.faultCode ≠ ready.faultCode :=
  ⟨by simp [StreamFits, ready, State.reset], ⟨_, rfl, by decide⟩⟩

theorem witness_CompleteRunStays : StreamFits State.reset ∧ Complete State.reset := by
  simp [StreamFits, Complete, State.reset]

/-- Both ways to be a state after reset; the host's reset clears a fault and an open session. -/
theorem witness_ResetState :
    State.reset = State.reset ∧ applyReset { openIn .reading with faultCode := 8 } = State.reset := by decide

theorem witness_ReadsAreUnderNoLaw : (openIn .cmdSent).ses = .cmdSent ∧ (openIn .reading).ses = .reading := by decide

/-- A driven latch allows one level, an undriven pad and a contended one both. -/
theorem witness_PadShowsDrivenLatch :
    padMay (configured .low .input) .ce false .high = false ∧ padMay (configured .low .input) .ce false .low = true ∧
      padMay (configured .low .input) .ce true .high = true ∧ padMay (configured .low .input) .dio false .high = true ∧
      padMay (configured .low .output) .dio false .high = true := by decide

theorem witness_PinIdentifiersDistinct : Config.pinId .dio = Config.pinId .dio := rfl

/-- PSB changes the direction of CLK and CE and appends events that do; SEND changes that of DIO. -/
theorem witness_DirectionsChangeOnlyThere :
    (∃ t, exec .psb State.reset = .next t ∧ t.pins.dirClk ≠ State.reset.pins.dirClk ∧
      Event.dir .ce .output ∈ newEvents State.reset t) ∧
    ∃ t, exec (.send 0) (openIn .openEmpty) = .next t ∧ t.pins.dirDio ≠ (openIn .openEmpty).pins.dirDio ∧
      Event.dir .dio .output ∈ newEvents (openIn .openEmpty) t :=
  ⟨⟨_, rfl, by decide, by decide⟩, ⟨_, rfl, by decide, List.mem_cons_self⟩⟩

/-- A command whose conditions hold completes. -/
theorem completes_of_runs {i : Instr} {s : State} (h : Runs i s) (hf : s.faultCode = 0) : ∃ t, Completes i s t :=
  ⟨_, completes_iff.mpr ⟨h, hf, rfl⟩⟩

/-- Every command completes somewhere. -/
theorem witness_Completes :
    (∃ t, Completes .psb State.reset t) ∧ (∃ t, Completes .pse ready t) ∧ (∃ t, Completes .ceb ready t) ∧
      (∃ t, Completes .cee (openIn .cmdSent) t) ∧ (∃ t, Completes (.send 0xA5) (openIn .openEmpty) t) ∧
      (∃ t, Completes .recv (openIn .reading) t) ∧ (∃ t, Completes (.xfw 0xFE [2, 3]) ready t) ∧
      (∃ t, Completes (.xfr 0xBF 8) ready t) :=
  ⟨completes_of_runs rfl rfl, completes_of_runs ⟨rfl, rfl⟩ rfl, completes_of_runs ⟨rfl, rfl⟩ rfl,
    completes_of_runs ⟨by decide, by decide⟩ rfl, completes_of_runs ⟨by decide, by decide⟩ rfl,
    completes_of_runs (Or.inr rfl) rfl, completes_of_runs ⟨rfl, rfl⟩ rfl, completes_of_runs ⟨rfl, rfl⟩ rfl⟩

/-- A command answers a next state where it completes and where it faults; a command that receives nothing. -/
theorem witness_FrameOfEveryCommand :
    (∃ t, exec .psb State.reset = .next t ∧ t.psActive ≠ State.reset.psActive) ∧
      (∃ t, exec .pse State.reset = .next t) ∧ receivedBytes (.xfr 0xC1 0) = 0 ∧ receivedBytes .recv = 1 :=
  ⟨⟨_, rfl, by decide⟩, ⟨_, rfl⟩, by decide, by decide⟩

theorem witness_ReceivedBytesAreLevelsRead :
    (∃ t, step (start [0x10000000] []) = .next t) ∧ ∃ t, Completes (.xfr 0xBF 8) ready t :=
  ⟨⟨_, rfl⟩, completes_of_runs ⟨rfl, rfl⟩ rfl⟩

theorem witness_SessionGrammar :
    ready.psActive = true ∧ (openIn .openEmpty).psActive = true ∧ (openIn .cmdSent).psActive = true ∧
      (openIn .writing).psActive = true ∧ (openIn .reading).psActive = true ∧
      State.reset.psActive = false ∧ State.reset.ses = .closed := by decide

/-- The premises of the two sequence claims; V4: `SEND; RECV; RECV` completes, `SEND; RECV; SEND` and `RECV` do not. -/
theorem witness_SessionGrammar_sequences :
    (openIn .openEmpty).faultCode = 0 ∧ (openIn .openEmpty).ses = .openEmpty ∧ ready.faultCode = 0 ∧
      ready.psActive = true ∧ ready.ses = .closed ∧
      [Instr.send 0xC1, .recv, .recv].all isTransfer = true ∧ ([] : List Instr).all isTransfer = true ∧
      (runAll [.ceb, .send 0xC1, .recv, .recv, .cee] ready).isSome = true ∧
      runAll [.send 0xC1, .recv, .send 0] (openIn .openEmpty) = none ∧
      runAll [.recv] (openIn .openEmpty) = none ∧ runAll [.ceb, .cee] ready = none := by decide

theorem witness_BitOrderingLaw : ∃ t, Completes (.send 0x80) (openIn .writing) t := ⟨_, rfl, rfl, rfl⟩

/-- The hypotheses of `PulseCountLaw`, `CeWritesPerCommand` and `LeastTimes`, for a command with and one without pulses. -/
theorem witness_PulseCountLaw :
    (∃ t, Completes (.xfw 0xC0 []) ready t ∧ Instr.xfw 0xC0 [] ≠ .psb ∧ Instr.xfw 0xC0 [] ≠ .pse) ∧
      (∃ t, Completes .ceb ready t ∧ Instr.ceb ≠ .psb ∧ Instr.ceb ≠ .pse) ∧ ∃ t, Completes .psb State.reset t :=
  ⟨⟨_, ⟨rfl, rfl, rfl⟩, by decide, by decide⟩, ⟨_, ⟨rfl, rfl, rfl⟩, by decide, by decide⟩, ⟨_, rfl, rfl, rfl⟩⟩

theorem witness_SendRecvSameShape :
    (∃ t, Completes (.send 0) (openIn .openEmpty) t) ∧ ∃ t, Completes .recv (openIn .cmdSent) t :=
  ⟨⟨_, rfl, rfl, rfl⟩, ⟨_, rfl, rfl, rfl⟩⟩

theorem witness_SendIsSampledAtBothEdges :
    (openIn .openEmpty).pins.latCe = .known .high ∧ ∃ t, Completes (.send 0xBF) (openIn .openEmpty) t :=
  ⟨rfl, ⟨_, rfl, rfl, rfl⟩⟩

theorem witness_CeWritesPerCommand : ∃ t, Completes .cee (openIn .reading) t := ⟨_, rfl, rfl, rfl⟩

theorem witness_XfwWireCarriesBytes : ∃ t, Completes (.xfw 0xFE [2, 3]) ready t :=
  completes_of_runs ⟨rfl, rfl⟩ rfl

theorem witness_LeastTimes : ∃ t, Completes (.xfr 0xC1 0) ready t := completes_of_runs ⟨rfl, rfl⟩ rfl

theorem witness_StaleDioLatchIsDriven : ∃ t, Completes (.send 1) (openIn .writing) t := ⟨_, rfl, rfl, rfl⟩

/-- The hypotheses of the three statements about transactions and their primitives. -/
theorem witness_XfwEqualsPrimitives :
    ready.faultCode = 0 ∧ ready.psActive = true ∧ ready.ses = .closed := by decide

theorem witness_XfrEqualsPrimitives :
    (1 : BitVec 8) ≠ 0 ∧ ready.faultCode = 0 ∧ ready.psActive = true ∧ ready.ses = .closed := by decide

theorem witness_XfrOfNoBytesTurnsFirst :
    ready.faultCode = 0 ∧ ready.psActive = true ∧ ready.ses = .closed ∧ Idle ready.pins := by
  simp [ready, State.reset, Idle, configured]

/-- The trace of `PSB; CEB`. -/
def openTrace : List Event :=
  [.wr .ce .low, .dir .ce .output, .wr .clk .low, .dir .clk .output, .dir .dio .input, .wr .ce .high]

/-- The state after `PSB; CEB` (V3), at the end of its stream. -/
def opened : State :=
  { openIn .openEmpty with stream := [0x10000000, 0x30000000], cidx := 2, trace := openTrace }

/-- A state with an open session meets the invariant, and steps. -/
theorem witness_StepKeepsInvariant : Invariant opened ∧ ∃ t, step opened = .next t := by
  refine ⟨?_, ⟨_, rfl⟩⟩
  constructor <;> simp [opened, openIn, muxDirection, State.reset, configured, openTrace] <;> decide

theorem witness_StatusLayout : Invariant opened := witness_StepKeepsInvariant.1

theorem witness_InvariantNeverStops : Invariant opened ∧ StreamFits opened :=
  ⟨witness_StepKeepsInvariant.1, by simp [StreamFits, opened]⟩

/-- The first run, and a run after the reset of a faulted block that has read eight levels. -/
theorem witness_EveryRunMeetsInvariant :
    (RunStart (start [0x10000000, 0x20000000] [.high]) ∧ StreamFits (start [0x10000000, 0x20000000] [.high])) ∧
      RunStart (applyReset { opened with faultCode := 8, drawCount := 8 }) ∧
      StreamFits (applyReset { opened with faultCode := 8, drawCount := 8 }) ∧
      (applyReset { opened with faultCode := 8, drawCount := 8 }).drawBase = 8 :=
  ⟨⟨Or.inl ⟨_, _, rfl⟩, by simp [StreamFits, start]⟩, Or.inr ⟨_, rfl⟩, by simp [StreamFits, applyReset, opened], rfl⟩

theorem witness_EveryRunEnds : RunStart (start [] []) ∧ StreamFits (start [] []) :=
  ⟨Or.inl ⟨_, _, rfl⟩, by simp [StreamFits, start]⟩

end Sys2Proof.Tests
end

section
/-! Proofs of the statements of spec/00_scope.md: the model never stops where the invariant holds, long streams are refused,
what the pin primitives do, and the pin identifiers. -/

namespace Sys2Proof.Machine

open Sys2Proof.Safety

/-! ## Progress -/

/-- Every command answers a next state: the block's own faults are next states (rule R222). -/
theorem exec_next (i : Instr) (s : State) : ∃ t, exec i s = .next t := by
  by_cases h : Runs i s
  · exact ⟨_, exec_of_runs h⟩
  · obtain ⟨c, _, he⟩ := exec_of_not_runs h
    exact ⟨_, he⟩

/-- Only `cidx` past the end of the stream or a stream too long stops the model. -/
theorem step_next_of_cidx_le {s : State} (hl : StreamFits s) (hc : s.cidx ≤ s.stream.length) :
    ∃ t, step s = .next t := by
  by_cases hf : s.faultCode = 0
  · rcases Nat.lt_or_eq_of_le hc with hc | hc
    · cases hx : decodeAt s.stream s.cidx with
      | command i rest => rw [step_command hl hf hc hx]; exact exec_next i s
      | illegal => exact ⟨_, step_illegal hl hf hc hx⟩
      | malformed => exact ⟨_, step_malformed hl hf hc hx⟩
      | endOfStream => exact absurd hx (decodeAt_ne_endOfStream hc)
    · exact ⟨_, step_ended hl hf hc⟩
  · exact ⟨_, step_stopped hl hf⟩

/-- Settles O55: of the invariant, progress needs only that `cidx` lies in the stream (rule R36). -/
theorem invariantNeverStops : Obligations.InvariantNeverStops := fun _ hi hl =>
  step_next_of_cidx_le hl hi.cidxInStream

/-- Settles O10: the length check comes before all others, and an index up to a length below 2^32 is not wrapped. -/
theorem longStreamRefused : Obligations.LongStreamRefused := by
  intro s
  refine ⟨fun h => step_tooLong h, fun hl hc => ?_⟩
  have hlt : s.cidx < 2 ^ 32 := Nat.lt_of_le_of_lt hc hl
  rw [BitVec.toNat_ofNat, Nat.mod_eq_of_lt hlt]

/-! ## The pin primitives -/

/-- A known draw is the one answered first (rule R25). -/
theorem drawAt_zero_of_cons {s : State} {l : Level} {ls : List Level} (h : s.draws = l :: ls) : drawAt s 0 = l := by
  simp [drawAt, h]

/-- Settles O31: the pins of the two writing primitives are `setDir` and `setLat`, whose rules say what is kept. -/
theorem pinPrimitivesAppendOneEvent : Obligations.PinPrimitivesAppendOneEvent := by
  refine ⟨fun r d s => ⟨setDir s.pins r (.known d), rfl, ?_, fun q hq => ?_, fun q => getLat_setDir ..⟩,
    fun r l s => ⟨setLat s.pins r (.known l), rfl, ?_, fun q hq => ?_, fun q => getDir_setLat ..⟩,
    fun _ _ => rfl, fun _ _ _ => drawAt_zero_of_cons, fun _ _ => rfl, rfl, rfl, rfl, rfl⟩
  · rw [getDir_setDir, if_pos rfl]
  · rw [getDir_setDir, if_neg hq]
  · rw [getLat_setLat, if_pos rfl]
  · rw [getLat_setLat, if_neg hq]

/-! ## The pin identifiers -/

theorem skipOne_ne (a seed : Nat) : Config.skipOne a seed ≠ a := by
  unfold Config.skipOne; split <;> omega

/-- Skipping `b` moves only seeds from `b` on, and so never onto a smaller number. -/
theorem skipOne_ne_of_le {a b seed : Nat} (hab : a ≤ b) (h : seed ≠ a) : Config.skipOne b seed ≠ a := by
  unfold Config.skipOne; split <;> omega

theorem pinCe_ne_pinClk : Config.pinCe ≠ Config.pinClk := skipOne_ne _ _

theorem pinDio_ne_max : Config.pinDio ≠ max Config.pinClk Config.pinCe := skipOne_ne _ _

theorem pinDio_ne_min : Config.pinDio ≠ min Config.pinClk Config.pinCe :=
  skipOne_ne_of_le min_le_max (skipOne_ne _ _)

/-! The DIO pin is neither the larger nor the smaller of the other two, so it is neither of them. -/

theorem pinDio_ne_pinClk : Config.pinDio ≠ Config.pinClk := by
  have hmax := pinDio_ne_max
  have hmin := pinDio_ne_min
  omega

theorem pinDio_ne_pinCe : Config.pinDio ≠ Config.pinCe := by
  have hmax := pinDio_ne_max
  have hmin := pinDio_ne_min
  omega

/-- Settles O35: by the three inequalities between pins of different roles. -/
theorem pinIdentifiersDistinct : Obligations.PinIdentifiersDistinct
  | .clk, .clk, _ => rfl
  | .ce, .ce, _ => rfl
  | .dio, .dio, _ => rfl
  | .clk, .ce, h => absurd h.symm pinCe_ne_pinClk
  | .ce, .clk, h => absurd h pinCe_ne_pinClk
  | .clk, .dio, h => absurd h.symm pinDio_ne_pinClk
  | .dio, .clk, h => absurd h pinDio_ne_pinClk
  | .ce, .dio, h => absurd h.symm pinDio_ne_pinCe
  | .dio, .ce, h => absurd h pinDio_ne_pinCe

end Sys2Proof.Machine
end

section
/-! Proofs of the statements of spec/10_state.md: the invariant, at reset, over a step and over a run; `cidx`, the trace,
the received bytes and STATUS; what every command leaves as it was; reads, pads and the accumulator.

The pins and the discipline of the trace are followed together, by triples over lists of events (`Leads`). -/

namespace Sys2Proof.Machine

open Sys2Proof.Safety

/-! ## Lengths of decoded commands -/

theorem length_of_decodePlain {i j : Instr} {w : Word} {ws rest : List Word} (hi : i.words = 1)
    (h : decodePlain i w ws = .command j rest) : (w :: ws).length = j.words + rest.length := by
  unfold decodePlain at h
  split at h <;> cases h
  rw [hi, List.length_cons, Nat.add_comm]

theorem length_of_decodeSend {j : Instr} {w : Word} {ws rest : List Word}
    (h : decodeSend w ws = .command j rest) : (w :: ws).length = j.words + rest.length := by
  unfold decodeSend at h
  split at h <;> cases h
  exact Nat.add_comm ..

theorem length_of_decodeXfw {j : Instr} {w : Word} {ws rest : List Word}
    (h : decodeXfw w ws = .command j rest) : (w :: ws).length = j.words + rest.length := by
  unfold decodeXfw at h
  split at h
  next bytes rest' htake =>
    cases h
    obtain ⟨-, rfl⟩ := takePayload_some htake
    simp only [Instr.words, List.length_cons, List.length_append, List.length_map]
    omega
  next => cases h

/-- The decoder consumes exactly the words of the command it answers (rule R84). -/
theorem length_of_decode {i : Instr} {ws rest : List Word} (h : decode ws = .command i rest) :
    ws.length = i.words + rest.length := by
  cases ws with
  | nil => cases h
  | cons w ws =>
    simp only [decode] at h
    split at h
    · cases h
    split at h
    · exact length_of_decodePlain rfl h
    · exact length_of_decodePlain rfl h
    · exact length_of_decodePlain rfl h
    · exact length_of_decodePlain rfl h
    · exact length_of_decodeSend h
    · exact length_of_decodePlain rfl h
    · exact length_of_decodeXfw h
    · cases h; exact Nat.add_comm ..
    · cases h

/-- A command decoded in the stream ends in the stream (rule R36). -/
theorem cidx_add_words_le {S rest : List Word} {k : Nat} {i : Instr} (hk : k < S.length)
    (h : decodeAt S k = .command i rest) : k + i.words ≤ S.length := by
  have hlen := length_of_decode h
  rw [List.length_drop] at hlen
  omega

/-! ## What a step can do -/

theorem endOfStream_eq_or_takeFault (s : State) :
    endOfStream s = s ∨ ∃ c idx word, endOfStream s = takeFault (causeCode c) idx word s := by
  rcases endOfStream_cases s with ⟨-, h⟩ | ⟨-, -, h⟩ | ⟨-, -, h⟩
  · exact Or.inr ⟨_, _, _, h⟩
  · exact Or.inr ⟨_, _, _, h⟩
  · exact Or.inl h

/-- A step that answers a next state leaves the state as it is, enters a fault (rule R222), or has the whole effect of
the command decoded at `cidx`. -/
theorem step_effect_cases {s t : State} (h : step s = .next t) :
    t = s ∨ (∃ c idx word, t = takeFault (causeCode c) idx word s) ∨
      ∃ i rest, s.faultCode = 0 ∧ s.cidx < s.stream.length ∧ decodeAt s.stream s.cidx = .command i rest ∧ Runs i s ∧
        t = effect i s := by
  obtain ⟨-, ⟨-, rfl⟩ | ⟨hf, hlt, ⟨i, rest, hd, he⟩ | ⟨-, rfl⟩ | ⟨-, rfl⟩⟩ | ⟨-, -, rfl⟩⟩ := step_cases h
  · exact Or.inl rfl
  · rcases exec_cases he with ⟨hr, rfl⟩ | ⟨-, c, -, rfl⟩
    · exact Or.inr (Or.inr ⟨i, rest, hf, hlt, hd, hr, rfl⟩)
    · exact Or.inr (Or.inl ⟨c, _, _, rfl⟩)
  · exact Or.inr (Or.inl ⟨_, _, _, rfl⟩)
  · exact Or.inr (Or.inl ⟨_, _, _, rfl⟩)
  · exact (endOfStream_eq_or_takeFault s).imp_right Or.inl

theorem step_stream {s t : State} (h : step s = .next t) : t.stream = s.stream := by
  rcases step_effect_cases h with rfl | ⟨c, idx, word, rfl⟩ | ⟨i, rest, -, -, -, -, rfl⟩ <;> rfl

/-! ## Triples over event lists -/

/-- From every pins that meet `P`, the events `es` are all allowed where they stand and leave pins that meet `Q`. -/
def Leads (P : Pins → Prop) (es : List Event) (Q : Pins → Prop) : Prop :=
  ∀ p, P p → disciplined p es = true ∧ Q (replay p es)

theorem disciplined_append (p : Pins) (es fs : List Event) :
    disciplined p (es ++ fs) = (disciplined p es && disciplined (replay p es) fs) := by
  induction es generalizing p with
  | nil => rfl
  | cons e es ih => simp only [List.cons_append, disciplined, ih, replay_cons, Bool.and_assoc]

section
variable {P Q R : Pins → Prop} {e : Event} {es fs : List Event}

theorem Leads.nil : Leads P [] P := fun _ hp => ⟨rfl, hp⟩

theorem Leads.append (he : Leads P es Q) (hf : Leads Q fs R) : Leads P (es ++ fs) R := fun p hp => by
  obtain ⟨hes, hq⟩ := he p hp
  obtain ⟨hfs, hr⟩ := hf _ hq
  rw [disciplined_append, hes, hfs, replay_append]
  exact ⟨rfl, hr⟩

theorem Leads.cons (he : Leads P [e] Q) (hes : Leads Q es R) : Leads P (e :: es) R := Leads.append he hes

/-- A piece that keeps `P` may be repeated any number of times. -/
theorem Leads.flatMap {α : Type} {f : α → List Event} (h : ∀ x, Leads P (f x) P) (xs : List α) :
    Leads P (xs.flatMap f) P := by
  induction xs with
  | nil => exact Leads.nil
  | cons x xs ih => exact (h x).append ih

end

/-- The pins of an active pin session between two pulses, but for the DIO latch: CLK and CE are Outputs, CLK is Low
(rule R26, rule R32), CE has the level `ce` and DIO the direction `d`. -/
def Active (ce : Level) (d : Direction) (p : Pins) : Prop :=
  p.dirClk = .known .output ∧ p.dirCe = .known .output ∧ p.latClk = .known .low ∧ p.latCe = .known ce ∧
    p.dirDio = .known d

theorem idle_iff_active (p : Pins) : Idle p ↔ Active .low .input p := by
  unfold Idle Active; tauto

/-- The `Active` pins whose DIO latch is `l`. -/
def activePins (ce : Level) (d : Direction) (l : LatState) : Pins where
  dirClk := .known .output
  dirCe := .known .output
  dirDio := .known d
  latClk := .known .low
  latCe := .known ce
  latDio := l

theorem active_activePins (ce : Level) (d : Direction) (l : LatState) : Active ce d (activePins ce d l) :=
  ⟨rfl, rfl, rfl, rfl, rfl⟩

theorem Active.eq_activePins {ce : Level} {d : Direction} {p : Pins} (h : Active ce d p) :
    p = activePins ce d p.latDio := by
  cases p
  obtain ⟨h1, h2, h3, h4, h5⟩ := h
  simp only at h1 h2 h3 h4 h5
  subst h1 h2 h3 h4 h5
  rfl

/-- Between `Active` pins a list of events is followed by evaluation, whatever the DIO latch. -/
theorem Leads.of_activePins {ce ce' : Level} {d d' : Direction} {es : List Event}
    (h : ∀ l, disciplined (activePins ce d l) es = true ∧ ∃ l', replay (activePins ce d l) es = activePins ce' d' l') :
    Leads (Active ce d) es (Active ce' d') := fun p hp => by
  obtain ⟨hdisc, l', hreplay⟩ := h p.latDio
  rw [hp.eq_activePins, hreplay]
  exact ⟨hdisc, active_activePins ce' d' l'⟩

theorem leads_turn (d d' : Direction) (ce : Level) : Leads (Active ce d) [.dir .dio d'] (Active ce d') :=
  .of_activePins fun _ => ⟨rfl, _, rfl⟩

theorem leads_open : Leads (Active .low .input) [.wr .ce .high] (Active .high .input) :=
  .of_activePins fun _ => ⟨rfl, _, rfl⟩

theorem leads_close (d : Direction) : Leads (Active .high d) closeEvents (Active .low .input) :=
  .of_activePins fun _ => ⟨rfl, _, rfl⟩

theorem leads_pulse (d : Direction) : Leads (Active .high d) pulseEvents (Active .high d) :=
  .of_activePins fun _ => ⟨rfl, _, rfl⟩

theorem leads_writeBit (l : Level) : Leads (Active .high .output) [.wr .dio l] (Active .high .output) :=
  .of_activePins fun _ => ⟨rfl, _, rfl⟩

theorem leads_readBit (l : Level) : Leads (Active .high .input) [.rd .dio l] (Active .high .input) :=
  .of_activePins fun _ => ⟨rfl, _, rfl⟩

theorem leads_sendEvents (d : Direction) (v : Byte) : Leads (Active .high d) (sendEvents v) (Active .high .output) :=
  .cons (leads_turn d .output .high) (.flatMap (fun _ => .cons (leads_writeBit _) (leads_pulse _)) _)

theorem leads_recvEvents (d : Direction) (l : Nat → Level) :
    Leads (Active .high d) (recvEvents l) (Active .high .input) :=
  .cons (leads_turn d .input .high) (.flatMap (fun _ => .cons (leads_readBit _) (leads_pulse _)) _)

theorem leads_xfwEvents (a : Byte) (data : List Byte) :
    Leads (Active .low .input) (xfwEvents a data) (Active .low .input) :=
  .cons leads_open
    (((leads_sendEvents .input a).append (.flatMap (leads_sendEvents .output) data)).append (leads_close .output))

theorem leads_xfrEvents (a : Byte) (l : Nat → Level) (n : Nat) :
    Leads (Active .low .input) (xfrEvents a l n) (Active .low .input) :=
  .cons leads_open <|
    ((leads_sendEvents .input a).append <|
      .cons (leads_turn .output .input .high) (.flatMap (fun _ => leads_recvEvents .input _) _)).append
    (leads_close .input)

/-- No PSB yet, or a PSE since: the pins outside a pin session (rule R241, rule R121). -/
def Released (p : Pins) : Prop := p = Pins.reset ∨ Active .low .input p

theorem leads_psb (l : Nat → Level) : Leads Released (commandEvents l .psb) (Active .low .input) := by
  rintro p (rfl | hp)
  · exact ⟨rfl, active_activePins .low .input .unknown⟩
  · exact Leads.of_activePins (fun _ => ⟨rfl, _, rfl⟩) p hp

theorem leads_pse (l : Nat → Level) :
    Leads (Active .low .input) (commandEvents l .pse) (Active .low .input) :=
  .of_activePins fun _ => ⟨rfl, _, rfl⟩

/-- The level of CE in a phase (rule R32). -/
def ceLevel : Phase → Level
  | .closed => .low
  | .openEmpty => .high
  | .cmdSent => .high
  | .writing => .high
  | .reading => .high

/-- The pins a state of the invariant has between two commands, by `ps_active` and the phase. -/
def PinsFit (b : Bool) (ph : Phase) (p : Pins) : Prop :=
  match b with
  | true => Active (ceLevel ph) (muxDirection ph) p
  | false => ph = .closed ∧ Released p

theorem pinsFit_inactive {ph : Phase} {p : Pins} : PinsFit false ph p ↔ ph = .closed ∧ Released p := Iff.rfl

theorem pinsFit_active {ph : Phase} {p : Pins} : PinsFit true ph p ↔ Active (ceLevel ph) (muxDirection ph) p := Iff.rfl

/-- In an open session CE is High, and the pin session is active (rule R30, rule R32). -/
theorem pinsFit_open {b : Bool} {ph : Phase} {p : Pins} (hph : ph ≠ .closed) :
    PinsFit b ph p ↔ b = true ∧ Active .high (muxDirection ph) p := by
  cases b with
  | false => simp [pinsFit_inactive, hph]
  | true =>
    have hce : ceLevel ph = .high := by cases ph <;> trivial
    simp [pinsFit_active, hce]

theorem latCe_ne_high_of_closed {b : Bool} {p : Pins} (h : PinsFit b .closed p) : p.latCe ≠ .known .high := by
  cases b with
  | true =>
    obtain ⟨-, -, -, hce, -⟩ := pinsFit_active.mp h
    rw [hce]; nofun
  | false =>
    obtain ⟨-, rfl | ⟨-, -, -, hce, -⟩⟩ := pinsFit_inactive.mp h
    · nofun
    · rw [hce]; nofun

/-- CE is High exactly in an open session (rule R32). -/
theorem latCe_high_iff_open {b : Bool} {ph : Phase} {p : Pins} (h : PinsFit b ph p) :
    p.latCe = .known .high ↔ ph ≠ .closed := by
  constructor
  · rintro hce rfl
    exact latCe_ne_high_of_closed h hce
  · intro hph
    obtain ⟨-, -, -, -, hce, -⟩ := (pinsFit_open hph).mp h
    exact hce

theorem phaseAfterSend_eq (ph : Phase) : phaseAfterSend ph = .cmdSent ∨ phaseAfterSend ph = .writing := by
  unfold phaseAfterSend; split <;> simp

/-- A command that completes has only allowed events and leaves the pins its phase asks for. -/
theorem leads_commandEvents {i : Instr} {s : State} (h : Runs i s) (l : Nat → Level) :
    Leads (PinsFit s.psActive s.ses) (commandEvents l i)
      (PinsFit (psActiveAfter i s.psActive) (phaseAfter i s.ses)) := by
  intro p hp
  cases i with
  | psb =>
    replace h : s.psActive = false := h
    rw [h] at hp
    obtain ⟨hc, hr⟩ := hp
    rw [phaseAfter, hc]
    exact leads_psb l p hr
  | pse =>
    obtain ⟨ha, hc⟩ := h
    rw [ha, hc] at hp
    obtain ⟨hd, hq⟩ := leads_pse l p hp
    exact ⟨hd, hc, Or.inr hq⟩
  | ceb =>
    obtain ⟨ha, hc⟩ := h
    rw [ha, hc] at hp
    rw [ha]
    exact leads_open p hp
  | cee =>
    obtain ⟨hc, -⟩ := h
    obtain ⟨ha, hp⟩ := (pinsFit_open hc).mp hp
    rw [ha]
    exact leads_close _ p hp
  | send v =>
    obtain ⟨hc, -⟩ := h
    obtain ⟨ha, hp⟩ := (pinsFit_open hc).mp hp
    rw [ha, phaseAfter]
    rcases phaseAfterSend_eq s.ses with hs | hs <;> rw [hs] <;> exact leads_sendEvents _ v p hp
  | recv =>
    have hc : s.ses ≠ .closed := by rcases h with h | h <;> rw [h] <;> nofun
    obtain ⟨ha, hp⟩ := (pinsFit_open hc).mp hp
    rw [ha]
    exact leads_recvEvents _ l p hp
  | xfw a data =>
    obtain ⟨ha, hc⟩ := h
    rw [ha, hc] at hp
    rw [ha]
    exact leads_xfwEvents a data p hp
  | xfr a n =>
    obtain ⟨ha, hc⟩ := h
    rw [ha, hc] at hp
    rw [ha]
    exact leads_xfrEvents a l n.toNat p hp

/-! ## Levels read and bytes received -/

theorem bitOf_lvl (b : Bool) : bitOf (lvl b) = b := by cases b <;> rfl

theorem lvl_bitOf (l : Level) : lvl (bitOf l) = l := by cases l <;> rfl

/-- Writing a bit of a byte: that bit reads as written, every other one as before (rule R17). -/
theorem getLsbD_setBit (v : Byte) (b : Bool) {i k : Nat} (hk : k < 8) :
    (setBit v i b).getLsbD k = if k = i then b else v.getLsbD k := by
  rcases eq_or_ne k i with rfl | hki
  · cases b <;> simp [setBit, hk]
  · cases b <;> simp [setBit, hk, hki]

/-- Bit `k` of a received byte is the `k`-th level read (rule R63). -/
theorem getLsbD_byteOf (l : Nat → Level) {k : Nat} (hk : k < 8) : (byteOf l).getLsbD k = bitOf (l k) := by
  rw [← setBits_eq_byteOf]
  simp only [range_eight, List.foldl_cons, List.foldl_nil, getLsbD_setBit _ _ hk]
  interval_cases k <;> rfl

theorem byteLevels_byteOf (l : Nat → Level) : byteLevels (byteOf l) = (List.range 8).map l := by
  refine List.map_congr_left fun k hk => ?_
  rw [getLsbD_byteOf l (List.mem_range.mp hk), lvl_bitOf]

/-- A byte is received from its own levels. -/
theorem byteOf_eq_of_levels {l : Nat → Level} {b : Byte} (h : ∀ k, k < 8 → l k = lvl (b.getLsbD k)) : byteOf l = b :=
  BitVec.eq_of_getLsbD_eq fun k hk => by rw [getLsbD_byteOf l hk, h k hk, bitOf_lvl]

theorem rdLevels_sendEvents (v : Byte) : (sendEvents v).filterMap rdLevel = [] := rfl

theorem rdLevels_closeEvents : closeEvents.filterMap rdLevel = [] := rfl

theorem rdLevels_recvEvents (l : Nat → Level) : (recvEvents l).filterMap rdLevel = byteLevels (byteOf l) := by
  rw [byteLevels_byteOf]; rfl

theorem rdLevels_sends (data : List Byte) : (data.flatMap sendEvents).filterMap rdLevel = [] := by
  simp [List.filterMap_flatMap, rdLevels_sendEvents]

theorem rdLevels_recvsEvents (l : Nat → Level) (n : Nat) :
    (recvsEvents l n).filterMap rdLevel = (bytesOf l n).flatMap byteLevels := by
  simp [recvsEvents, bytesOf, List.filterMap_flatMap, rdLevels_recvEvents, List.flatMap_map]

/-- The levels a command reads are the bits of the bytes it receives, in order (rule R35, rule R63). -/
theorem rdLevels_commandEvents (l : Nat → Level) (i : Instr) :
    (commandEvents l i).filterMap rdLevel = (bytesOf l (receivedBytes i)).flatMap byteLevels := by
  cases i with
  | psb => rfl
  | pse => rfl
  | ceb => rfl
  | cee => rfl
  | send v => rfl
  | recv => simp [commandEvents, receivedBytes, bytesOf_one, rdLevels_recvEvents]
  | xfw a data =>
    rw [commandEvents, xfwEvents, List.filterMap_cons_none rfl, List.filterMap_append, List.filterMap_append,
      rdLevels_sendEvents, rdLevels_sends, rdLevels_closeEvents]
    rfl
  | xfr a n =>
    rw [commandEvents, xfrEvents, List.filterMap_cons_none rfl, List.filterMap_append, List.filterMap_append,
      List.filterMap_cons_none rfl, rdLevels_sendEvents, rdLevels_recvsEvents, rdLevels_closeEvents]
    exact List.append_nil _

theorem length_flatMap_byteLevels (bytes : List Byte) : (bytes.flatMap byteLevels).length = 8 * bytes.length := by
  simp [List.length_flatMap, byteLevels, Nat.mul_comm]

/-! ## The invariant -/

/-- The clauses of the invariant on `ps_active`, the phase and the pins say that the pins fit. -/
theorem pinsFit_of_invariant {s : State} (h : Invariant s) : PinsFit s.psActive s.ses s.pins := by
  cases ha : s.psActive with
  | true =>
    obtain ⟨hclk, hce⟩ := h.activeOutputs ha
    refine ⟨hclk, hce, h.clkLow ha, ?_, h.mux ha⟩
    cases hs : s.ses with
    | closed =>
      obtain ⟨-, -, -, -, hlow⟩ := h.closedIdle ha hs
      exact hlow
    | openEmpty | cmdSent | writing | reading => exact h.ceHigh.mpr (by rw [hs]; nofun)
  | false =>
    refine ⟨?_, ?_⟩
    · by_contra hs
      exact Bool.false_ne_true (ha.symm.trans (h.sessionNeedsPins hs))
    · exact (h.inactivePins ha).imp_right (idle_iff_active s.pins).mp

/-- The invariant, with one hypothesis for all that `ps_active` and the phase ask of the pins. -/
theorem invariant_of_pinsFit {s : State} (hpins : PinsFit s.psActive s.ses s.pins) (hcidx : s.cidx ≤ s.stream.length)
    (hcode : s.faultCode.toNat ≤ 10) (hregs : s.faultCode = 0 → s.faultIdx = 0 ∧ s.faultWord = 0)
    (hreplay : replay Pins.reset s.trace = s.pins) (hdisc : disciplined Pins.reset s.trace = true)
    (hrx : s.trace.filterMap rdLevel = s.rx.flatMap byteLevels)
    (hdrawn : s.drawBase + (s.trace.filterMap rdLevel).length = s.drawCount) : Invariant s where
  sessionNeedsPins hs := ((pinsFit_open hs).mp hpins).1
  activeOutputs ha := by
    obtain ⟨hclk, hce, -⟩ := pinsFit_active.mp (ha ▸ hpins)
    exact ⟨hclk, hce⟩
  closedIdle ha hs := by
    rw [ha, hs] at hpins
    exact (idle_iff_active _).mpr hpins
  clkLow ha := by
    obtain ⟨-, -, hclk, -⟩ := pinsFit_active.mp (ha ▸ hpins)
    exact hclk
  ceHigh := latCe_high_iff_open hpins
  mux ha := by
    obtain ⟨-, -, -, -, hdio⟩ := pinsFit_active.mp (ha ▸ hpins)
    exact hdio
  inactivePins ha := by
    obtain ⟨-, hr⟩ := pinsFit_inactive.mp (ha ▸ hpins)
    exact hr.imp_right (idle_iff_active _).mpr
  cidxInStream := hcidx
  codeLegal := hcode
  faultRegsZero := hregs
  replayed := hreplay
  traceDisciplined := hdisc
  received := hrx
  drawn := hdrawn

theorem causeCode_le_ten (c : FaultCause) : (causeCode c).toNat ≤ 10 := by cases c <;> decide

/-- Fault entry keeps the invariant: it writes the fault registers, with a legal code, and nothing else (rule R222). -/
theorem invariant_takeFault {s : State} (h : Invariant s) (c : FaultCause) (idx word : BitVec 32) :
    Invariant (takeFault (causeCode c) idx word s) :=
  { h with
    codeLegal := causeCode_le_ten c
    faultRegsZero := fun h0 => absurd h0 (causeCode_ne_zero c) }

/-- A command that completes within the stream keeps the invariant. -/
theorem invariant_effect {i : Instr} {s : State} (h : Invariant s) (hr : Runs i s)
    (hc : s.cidx + i.words ≤ s.stream.length) : Invariant (effect i s) := by
  obtain ⟨hdisc, hpins⟩ := leads_commandEvents hr (drawAt s) s.pins (pinsFit_of_invariant h)
  have hread : (effect i s).trace.filterMap rdLevel = (effect i s).rx.flatMap byteLevels := by
    rw [effect_trace, effect_rx, List.filterMap_append, List.flatMap_append, h.received, rdLevels_commandEvents]
  refine invariant_of_pinsFit hpins hc h.codeLegal h.faultRegsZero ?_ ?_ hread ?_
  · rw [effect_trace, replay_append, h.replayed, effect_pins]
  · rw [effect_trace, disciplined_append, h.traceDisciplined, h.replayed, hdisc]; rfl
  · have hs := h.drawn
    rw [h.received, length_flatMap_byteLevels] at hs
    rw [hread, length_flatMap_byteLevels, effect_rx, List.length_append, bytesOf_length, effect_drawBase,
      effect_drawCount]
    omega

/-- Settles O54: a step stays, enters a fault or has the effect of a command, and each keeps the invariant. -/
theorem stepKeepsInvariant : Obligations.StepKeepsInvariant := by
  intro s t h hst
  rcases step_effect_cases hst with rfl | ⟨c, idx, word, rfl⟩ | ⟨i, rest, -, hlt, hd, hr, rfl⟩
  · exact h
  · exact invariant_takeFault h c idx word
  · exact invariant_effect h hr (cidx_add_words_le hlt hd)

/-! ## Reset and runs -/

/-- A reset makes the invariant hold whatever the state was (rule R42, rule R240). -/
theorem invariant_applyReset (s : State) : Invariant (applyReset s) :=
  invariant_of_pinsFit ⟨rfl, Or.inl rfl⟩ (Nat.zero_le _) (Nat.zero_le _) (fun _ => ⟨rfl, rfl⟩) rfl rfl rfl rfl

/-- The first start of a run is what a reset makes of the state the host loaded. -/
theorem start_eq_applyReset (stream : List Word) (draws : List Level) :
    start stream draws = applyReset (start stream draws) := rfl

theorem invariant_start (stream : List Word) (draws : List Level) : Invariant (start stream draws) :=
  start_eq_applyReset stream draws ▸ invariant_applyReset _

/-- Settles O53: the reset state is the start of the run of the empty stream. -/
theorem invariantAtReset : Obligations.InvariantAtReset :=
  ⟨invariant_start [] [], invariant_start, invariant_applyReset⟩

theorem invariant_of_runStart {s : State} : RunStart s → Invariant s
  | .inl ⟨stream, draws, hs⟩ => hs ▸ invariant_start stream draws
  | .inr ⟨r, hs⟩ => hs ▸ invariant_applyReset r

theorem run_succ (k : Nat) {s u : State} (h : step s = .next u) : core.run (k + 1) s = core.run k u := by
  have hcore : core.step s = .next u := h
  simp only [Host.Core.run, hcore]

/-- From the invariant a run of any length goes on without a stop of the model and keeps it. -/
theorem run_of_invariant (k : Nat) {s : State} (h : Invariant s) (hl : StreamFits s) :
    ∃ t, core.run k s = .next t ∧ Invariant t := by
  induction k generalizing s with
  | zero => exact ⟨s, rfl, h⟩
  | succ k ih =>
    obtain ⟨u, hu⟩ := invariantNeverStops s h hl
    have hlu : StreamFits u := by rw [StreamFits, step_stream hu]; exact hl
    obtain ⟨t, ht, hinv⟩ := ih (stepKeepsInvariant s u h hu) hlu
    refine ⟨t, ?_, hinv⟩
    rw [run_succ k hu]
    exact ht

/-- Settles O56: every start of a run meets the invariant, and a run keeps it. -/
theorem everyRunMeetsInvariant : Obligations.EveryRunMeetsInvariant := fun _ k hs hl =>
  run_of_invariant k (invariant_of_runStart hs) hl

/-- Settles O29: the host's reset keeps only the stream and the draws of the state before. -/
theorem resetState : Obligations.ResetState := by
  rintro s t (rfl | rfl) <;> exact ⟨fun r => by cases r <;> exact ⟨rfl, rfl⟩, rfl, rfl, rfl, rfl, rfl, rfl, rfl, rfl⟩

/-! ## Steps, `cidx` and the trace -/

/-- Settles O9: of the cases of a fetch, the words at `cidx` decide for the command. -/
theorem stepRunsDecodedCommand : Obligations.StepRunsDecodedCommand := fun _ _ _ hl hf hc hd =>
  step_command hl hf hc hd

theorem raise_faultCode_ne_zero (c : FaultCause) (s : State) : (raise c s).faultCode ≠ 0 := causeCode_ne_zero c

/-- Settles O11: only a command that completes leaves no fault recorded, and a fault entry keeps `cidx`. -/
theorem cidxAdvancesByLength : Obligations.CidxAdvancesByLength := by
  refine ⟨rfl, fun s t hf hlt h => ?_⟩
  obtain ⟨-, ⟨hne, -⟩ | ⟨-, -, ⟨i, rest, hd, he⟩ | ⟨-, rfl⟩ | ⟨-, rfl⟩⟩ | ⟨-, heq, -⟩⟩ := step_cases h
  · exact absurd hf hne
  · rcases exec_cases he with ⟨-, rfl⟩ | ⟨-, c, -, rfl⟩
    · exact ⟨fun _ => ⟨i, rest, hd, he, rfl⟩, fun hne => absurd hf hne⟩
    · exact ⟨fun h0 => absurd h0 (raise_faultCode_ne_zero c s), fun _ => rfl⟩
  · exact ⟨fun h0 => absurd h0 (raise_faultCode_ne_zero _ s), fun _ => rfl⟩
  · exact ⟨fun h0 => absurd h0 (raise_faultCode_ne_zero _ s), fun _ => rfl⟩
  · omega

/-- Settles O13: of what a step can do only the effect of a command appends events, and then no fault is recorded. -/
theorem traceOnlyGrows : Obligations.TraceOnlyGrows := by
  refine ⟨rfl, fun s t h => ?_⟩
  rcases step_effect_cases h with rfl | ⟨c, idx, word, rfl⟩ | ⟨i, rest, hf, -, -, -, rfl⟩
  · have hnew : newEvents t t = [] := newEvents_of_same_trace rfl
    exact ⟨by rw [hnew, List.append_nil], fun _ => hnew⟩
  · have hnew : newEvents s (takeFault (causeCode c) idx word s) = [] := newEvents_of_same_trace rfl
    exact ⟨by rw [hnew, List.append_nil]; rfl, fun _ => hnew⟩
  · exact ⟨by rw [newEvents_effect, effect_trace], fun hne => absurd hf hne⟩

/-! ## Frames -/

theorem psActiveAfter_ne {i : Instr} {b : Bool} (h : psActiveAfter i b ≠ b) : i = .psb ∨ i = .pse := by
  cases i with
  | psb => exact Or.inl rfl
  | pse => exact Or.inr rfl
  | ceb | cee | send | recv | xfw | xfr => exact absurd rfl h

theorem phaseAfter_of_pinSession {i : Instr} (h : i = .psb ∨ i = .pse) (p : Phase) : phaseAfter i p = p := by
  rcases h with rfl | rfl <;> rfl

/-- A command that receives no byte makes no draw (rule R33, rule R35). -/
theorem effect_of_receivedBytes_zero {i : Instr} (h : receivedBytes i = 0) (s : State) :
    (effect i s).acc = s.acc ∧ (effect i s).rx = s.rx ∧ (effect i s).draws = s.draws ∧
      (effect i s).drawCount = s.drawCount := by
  simp [h, bytesOf_zero]

/-- Only the commands that transmit write the DIO latch (rule R48). -/
theorem effect_latDio {i : Instr} (h : i = .psb ∨ i = .pse ∨ i = .ceb ∨ i = .cee ∨ i = .recv) (s : State) :
    (effect i s).pins.latDio = s.pins.latDio := by
  rcases h with rfl | rfl | rfl | rfl | rfl
  · rfl
  · rfl
  · rfl
  · rfl
  · rw [effect_pins, commandEvents, replay_recvEvents]

/-- Settles O37: a command that runs changes what `effect` says, one that does not enters its fault. -/
theorem frameOfEveryCommand : Obligations.FrameOfEveryCommand := by
  intro i s t h
  rcases exec_cases h with ⟨-, rfl⟩ | ⟨-, c, -, rfl⟩
  · exact ⟨rfl, psActiveAfter_ne, fun hi => phaseAfter_of_pinSession hi _, fun h0 => effect_of_receivedBytes_zero h0 s,
      rfl, fun hi => effect_latDio hi s, Or.inl ⟨rfl, rfl, rfl⟩⟩
  · exact ⟨rfl, fun hne => absurd rfl hne, fun _ => rfl, fun _ => ⟨rfl, rfl, rfl, rfl⟩, rfl, fun _ => rfl, Or.inr rfl⟩

/-! ## Received bytes -/

theorem rx_grows_of_step {s t : State} (h : step s = .next t) : s.rx <+: t.rx := by
  rcases step_effect_cases h with rfl | ⟨c, idx, word, rfl⟩ | ⟨i, rest, -, -, -, -, rfl⟩
  · exact ⟨[], List.append_nil _⟩
  · exact ⟨[], List.append_nil _⟩
  · exact ⟨_, rfl⟩

/-- Settles O38: the bytes are those of the draws, and the levels read are their bits. -/
theorem receivedBytesAreLevelsRead : Obligations.ReceivedBytesAreLevelsRead := by
  refine ⟨rfl, fun _ _ => rx_grows_of_step, fun i s t h => ?_⟩
  obtain ⟨-, -, rfl⟩ := completes_iff.mp h
  refine ⟨bytesOf (drawAt s) (receivedBytes i), rfl, bytesOf_length _ _, ?_⟩
  rw [newEvents_effect]
  exact rdLevels_commandEvents _ i

/-- Known draws are answered in their order (rule R25). -/
theorem drawAt_of_known (s : State) {ds : List Level} {k : Nat} (hk : k < ds.length) :
    drawAt { s with draws := ds } k = ds[k] := by
  simp [drawAt, hk]

/-- Settles O32: the levels themselves are draws that answer them, and a byte is received from its own levels. -/
theorem readsAreUnderNoLaw : Obligations.ReadsAreUnderNoLaw := by
  constructor
  · intro s f n
    refine ⟨(List.range n).map f, fun k hk => ?_⟩
    rw [drawAt_of_known s (by simpa using hk)]
    simp
  · intro s b hs
    have hr : Runs .recv { s with draws := byteLevels b } := hs
    refine ⟨byteLevels b, _, exec_of_runs hr, ?_⟩
    have hb : byteOf (drawAt { s with draws := byteLevels b }) = b := byteOf_eq_of_levels fun k hk => by
      rw [drawAt_of_known s (by simpa [byteLevels] using hk)]
      simp [byteLevels]
    rw [effect_rx, receivedBytes, bytesOf_one, hb]

/-! ## The accumulator -/

theorem forgetAcc_exec (i : Instr) (s : State) (v : Byte) :
    forgetAcc (exec i { s with acc := v }) = forgetAcc (exec i s) := by
  by_cases hr : Runs i s
  · have hv : Runs i { s with acc := v } := hr
    rw [exec_of_runs hr, exec_of_runs hv]
    rfl
  · have hv : ¬ Runs i { s with acc := v } := hr
    obtain ⟨c, hc, he⟩ := exec_of_not_runs hr
    obtain ⟨c', hc', he'⟩ := exec_of_not_runs hv
    have hcode : causeCode c' = causeCode c := by simpa using hc'.symm.trans hc
    rw [he, he', raise_eq, raise_eq, hcode]
    rfl

theorem forgetAcc_endOfStream (s : State) (v : Byte) :
    forgetAcc (.next (endOfStream { s with acc := v })) = forgetAcc (.next (endOfStream s)) := by
  simp only [endOfStream]
  split_ifs <;> rfl

/-- Settles O52: what is fetched does not depend on the accumulator, nor what is done with it. -/
theorem accIsNeverRead : Obligations.AccIsNeverRead := by
  intro s v
  have hfetch : fetch { s with acc := v } = fetch s := rfl
  rw [step, step, hfetch]
  cases fetch s with
  | stopped => rfl
  | command i => exact forgetAcc_exec i s v
  | bad c => rfl
  | ended => exact forgetAcc_endOfStream s v
  | outside => rfl
  | tooLong => rfl

/-! ## Pads -/

/-- The block fixes the level of a pad exactly where it drives a written latch (rule R24). -/
theorem padView_eq_level_iff (p : Pins) (r : Role) (m : Level) :
    padView p r = .level m ↔ getDir p r = .known .output ∧ getLat p r = .known m := by
  cases hd : getDir p r with
  | unknown => simp [padView, hd]
  | known d => cases d <;> cases hl : getLat p r <;> simp [padView, hd, hl]

theorem padMay_iff (p : Pins) (r : Role) (other : Bool) (l : Level) :
    padMay p r other l = true ↔ ∀ m, padView p r = .level m → other = false → l = m := by
  cases hv : padView p r with
  | any => simp [padMay, hv]
  | level m => cases other <;> simp [padMay, hv]

/-- Settles O33: a level the block fixes is that of a driven, written latch. -/
theorem padShowsDrivenLatch : Obligations.PadShowsDrivenLatch := by
  intro p r other l
  simp only [padMay_iff, padView_eq_level_iff]
  exact ⟨fun h hd ho m hm => h m ⟨hd, hm⟩ ho, fun h m ⟨hd, hm⟩ ho => h hd ho m hm⟩

/-! ## The DIO latch -/

/-- Settles O48: the first event of a SEND is a turn of DIO, and its last write of DIO is bit 7. -/
theorem staleDioLatchIsDriven : Obligations.StaleDioLatchIsDriven := by
  refine ⟨fun p r q d => getLat_setDir p r q d, fun v s t h => ?_⟩
  obtain ⟨-, -, rfl⟩ := completes_iff.mp h
  rw [newEvents_effect]
  refine ⟨rfl, rfl, rfl, ?_⟩
  rw [effect_pins, commandEvents, replay_sendEvents]

/-! ## STATUS -/

theorem phaseCode_le_four (p : Phase) : (phaseCode p).toNat ≤ 4 := by cases p <;> decide

theorem isFaulted_iff (s : State) : isFaulted s = true ↔ s.faultCode ≠ 0 := decide_eq_true_iff

theorem statusWord_toNat (s : State) :
    (statusWord s).toNat = s.psActive.toNat + 2 * (phaseCode s.ses).toNat + 16 * (isFaulted s).toNat +
      256 * s.faultCode.toNat := by
  have hp := s.psActive.toNat_lt
  have hs := phaseCode_le_four s.ses
  have hf := (isFaulted s).toNat_lt
  have hc := s.faultCode.isLt
  rw [statusWord, BitVec.toNat_ofNat]
  omega

/-- A field of a word, as a quotient and remainder. -/
theorem extractLsb'_eq_iff (w : Word) {i n : Nat} {v : BitVec n} :
    w.extractLsb' i n = v ↔ w.toNat / 2 ^ i % 2 ^ n = v.toNat := by
  rw [← BitVec.toNat_inj, BitVec.extractLsb'_toNat, Nat.shiftRight_eq_div_pow]

theorem getLsbD_iff (w : Word) (i : Nat) : w.getLsbD i = true ↔ w.toNat / 2 ^ i % 2 = 1 := by
  rw [BitVec.getLsbD, Nat.testBit_eq_decide_div_mod_eq, decide_eq_true_iff]

/-- Settles O30: every part is smaller than the place its field leaves it, so the parts do not overlap. -/
theorem statusLayout : Obligations.StatusLayout := by
  refine ⟨fun s => ?_, rfl, rfl⟩
  have hword := statusWord_toNat s
  have hp := s.psActive.toNat_lt
  have hs := phaseCode_le_four s.ses
  have hf := (isFaulted s).toNat_lt
  have hc := s.faultCode.isLt
  have hcode : (statusWord s).extractLsb' 8 4 = s.faultCode := by
    rw [extractLsb'_eq_iff]
    omega
  refine ⟨?_, ?_, hs, ?_, ?_, hcode, ?_, fun h => hcode ▸ h.codeLegal⟩
  · rw [Bool.eq_iff_iff, getLsbD_iff, ← Bool.toNat_eq_one (b := s.psActive)]
    omega
  · rw [extractLsb'_eq_iff]
    omega
  · rw [← isFaulted_iff, getLsbD_iff, ← Bool.toNat_eq_one (b := isFaulted s)]
    omega
  · rw [extractLsb'_eq_iff, BitVec.ofNat_eq_ofNat, BitVec.toNat_zero]
    omega
  · rw [extractLsb'_eq_iff, BitVec.ofNat_eq_ofNat, BitVec.toNat_zero]
    omega

end Sys2Proof.Machine
end

section
/-! Proof of the statement of spec/20_memory.md: no step writes the command stream. -/

namespace Sys2Proof.Machine

/-- Settles O12: neither a fault entry nor the effect of a command has the stream among what it writes. -/
theorem streamIsImmutable : Obligations.StreamIsImmutable := fun _ _ h => step_stream h

end Sys2Proof.Machine
end

section
/-! Proofs of the statements of spec/30_encoding.md: the decoder and the encoder undo each other, illegal words and
malformed payloads, the opcode table, and the words of the assembler.

What the decoder does with a word is said once (`decode_cons_cases`): the word is illegal, or is an XFW, whose payload
decides, or is the whole encoding of the command it is read as. -/

namespace Sys2Proof.Machine

open Sys2Proof.Safety

/-! ## Decoding an encoded command -/

theorem decode_formatC_xfw (n a : Byte) (rest : List Word) :
    decode (formatC 7 n a :: rest) = decodeXfw (formatC 7 n a) rest := by
  simp [decode, rsvField_formatC, opField_formatC]

/-- Settles O1: the fields of an encoded word are those it was made of, and a payload of at most 255 bytes is read back
with its own count. -/
theorem decodeOfEncode : Obligations.DecodeOfEncode := by
  intro i rest hwf
  cases i with
  | psb | pse | ceb | cee | recv => rfl
  | send v => simp [encode, decode, decodeSend, rsvField_formatC, opField_formatC, cntField_formatC, immField_formatC]
  | xfr a n => simp [encode, decode, rsvField_formatC, opField_formatC, cntField_formatC, immField_formatC]
  | xfw a data =>
    have hlen : data.length ≤ 255 := of_decide_eq_true hwf
    have hcnt : (BitVec.ofNat 8 data.length).toNat = data.length := Nat.mod_eq_of_lt (Nat.lt_succ_of_le hlen)
    rw [encode, List.cons_append, decode_formatC_xfw, decodeXfw, cntField_formatC, immField_formatC, hcnt,
      takePayload_map]

/-- Settles O6: the words are encodings of their commands, so reading them is the round trip. -/
theorem literalWordsDecode : Obligations.LiteralWordsDecode :=
  ⟨decodeOfEncode .psb [] rfl, decodeOfEncode .pse [] rfl, decodeOfEncode .ceb [] rfl, decodeOfEncode .cee [] rfl,
    decodeOfEncode (.send 0x80) [] rfl, decodeOfEncode .recv [] rfl, decodeOfEncode (.xfw 0xC0 [0x01, 0xFF]) [] rfl,
    decodeOfEncode (.xfr 0xBF 8) [] rfl⟩

/-! ## The three kinds of words -/

/-- The illegal words of rule R86 to rule R88, by the fields of the word. -/
theorem illegalWord_iff (w : Word) :
    IllegalWord w ↔ (opField w).toNat = 0 ∨ 9 ≤ (opField w).toNat ∨ rsvField w ≠ 0 ∨
      ((opField w).toNat ∈ [1, 2, 3, 4, 6] ∧ (cntField w ≠ 0 ∨ immField w ≠ 0)) ∨
      ((opField w).toNat = 5 ∧ cntField w ≠ 0) := by
  simp only [IllegalWord, opField_toNat, ne_eq, ← BitVec.toNat_inj (x := rsvField w),
    ← BitVec.toNat_inj (x := cntField w), ← BitVec.toNat_inj (x := immField w), rsvField_toNat, cntField_toNat,
    immField_toNat]
  rfl

/-- A word of the given fields and `rsv` = 0 is the format C word of those fields (rule R80). -/
theorem eq_formatC {w : Word} {op : BitVec 4} (hr : rsvField w = 0) (ho : (opField w).toNat = op.toNat) :
    w = formatC op (cntField w) (immField w) := by
  rw [← BitVec.eq_of_toNat_eq ho, formatC_of w hr]

/-- A legal word is the command word of an XFW, or the whole encoding of another command. -/
theorem legalWord_cases {w : Word} (h : ¬ IllegalWord w) :
    ((opField w).toNat = 7 ∧ w = formatC 7 (cntField w) (immField w)) ∨
      ((opField w).toNat ≠ 7 ∧ ∃ i, i.wellFormed = true ∧ encode i = [w]) := by
  simp only [illegalWord_iff, not_or, not_and, not_not, ne_eq] at h
  obtain ⟨h0, h9, hr, hplain, hsend⟩ := h
  have plain {k : BitVec 4} (ho : (opField w).toNat = k.toNat) (hk : k.toNat ∈ [1, 2, 3, 4, 6]) :
      [formatC k 0 0] = [w] := by
    obtain ⟨hc, hi⟩ := hplain (ho ▸ hk)
    rw [eq_formatC hr ho, hc, hi]
  have hop : (opField w).toNat = 7 ∨ (opField w).toNat = 1 ∨ (opField w).toNat = 2 ∨ (opField w).toNat = 3 ∨
      (opField w).toNat = 4 ∨ (opField w).toNat = 5 ∨ (opField w).toNat = 6 ∨ (opField w).toNat = 8 := by omega
  refine hop.imp (fun ho => ⟨ho, eq_formatC hr ho⟩) fun hop => ⟨by omega, ?_⟩
  rcases hop with ho | ho | ho | ho | ho | ho | ho
  · exact ⟨.psb, rfl, plain ho (by decide)⟩
  · exact ⟨.pse, rfl, plain ho (by decide)⟩
  · exact ⟨.ceb, rfl, plain ho (by decide)⟩
  · exact ⟨.cee, rfl, plain ho (by decide)⟩
  · refine ⟨.send (immField w), rfl, ?_⟩
    rw [encode, ← hsend ho, ← eq_formatC (op := 5) hr ho]
  · exact ⟨.recv, rfl, plain ho (by decide)⟩
  · refine ⟨.xfr (immField w) (cntField w), rfl, ?_⟩
    rw [encode, ← eq_formatC (op := 8) hr ho]

theorem decode_of_illegalWord {w : Word} (h : IllegalWord w) (rest : List Word) : decode (w :: rest) = .illegal := by
  by_cases hr : rsvField w = 0
  · rcases (illegalWord_iff w).mp h with h0 | h9 | hne | ⟨hop, hf⟩ | ⟨hop, hc⟩
    · simp [decode, h0]
    · obtain ⟨k, hk⟩ := Nat.exists_eq_add_of_le' h9
      rw [decode, hk]
      exact ite_self _
    · exact absurd hr hne
    · have hill (i : Instr) : decodePlain i w rest = .illegal := if_neg (not_and_or.mpr hf)
      simp only [List.mem_cons, List.not_mem_nil, or_false] at hop
      rcases hop with ho | ho | ho | ho | ho <;> simp [decode, ho, hill]
    · have hill : decodeSend w rest = .illegal := if_neg hc
      simp [decode, hop, hill]
  · rw [decode, if_pos hr]

/-- What the decoder does with a word, of each of the three kinds. -/
theorem decode_cons_cases (w : Word) (rest : List Word) :
    (IllegalWord w ∧ decode (w :: rest) = .illegal) ∨
      (¬ IllegalWord w ∧ (opField w).toNat = 7 ∧ w = formatC 7 (cntField w) (immField w) ∧
        decode (w :: rest) = decodeXfw w rest) ∨
      (¬ IllegalWord w ∧ (opField w).toNat ≠ 7 ∧
        ∃ i, i.wellFormed = true ∧ encode i = [w] ∧ decode (w :: rest) = .command i rest) := by
  by_cases h : IllegalWord w
  · exact Or.inl ⟨h, decode_of_illegalWord h rest⟩
  · rcases legalWord_cases h with ⟨ho, hw⟩ | ⟨ho, i, hwf, hi⟩
    · refine Or.inr (Or.inl ⟨h, ho, hw, ?_⟩)
      rw [hw]
      exact decode_formatC_xfw _ _ _
    · refine Or.inr (Or.inr ⟨h, ho, i, hwf, hi, ?_⟩)
      rw [← List.singleton_append, ← hi]
      exact decodeOfEncode i rest hwf

/-- A payload is read as a command, with all its words, or is malformed (rule R84, rule R89). -/
theorem decodeXfw_cases (w : Word) (ws : List Word) :
    (takePayload (cntField w).toNat ws = none ∧ decodeXfw w ws = .malformed) ∨
      ∃ bytes rest, bytes.length = (cntField w).toNat ∧ ws = bytes.map formatD ++ rest ∧
        decodeXfw w ws = .command (.xfw (immField w) bytes) rest := by
  cases htake : takePayload (cntField w).toNat ws with
  | none => exact Or.inl ⟨rfl, by rw [decodeXfw, htake]⟩
  | some p =>
    obtain ⟨hlen, hws⟩ := takePayload_some htake
    exact Or.inr ⟨p.1, p.2, hlen, hws, by rw [decodeXfw, htake]⟩

/-- Settles O2: a command word is its own encoding, and an XFW is read with the payload its count announces. -/
theorem encodeOfDecode : Obligations.EncodeOfDecode := by
  intro words rest i h
  cases words with
  | nil => cases h
  | cons w ws =>
    rcases decode_cons_cases w ws with ⟨-, hd⟩ | ⟨-, -, hw, hd⟩ | ⟨-, -, j, hwf, hj, hd⟩
    · cases hd.symm.trans h
    · rcases decodeXfw_cases w ws with ⟨-, hx⟩ | ⟨bytes, rest', hlen, hws, hx⟩
      · cases (hd.trans hx).symm.trans h
      · cases (hd.trans hx).symm.trans h
        have hfit : bytes.length ≤ 255 := hlen ▸ Nat.le_of_lt_succ (cntField w).isLt
        refine ⟨decide_eq_true hfit, ?_⟩
        rw [encode, hlen, BitVec.ofNat_toNat, BitVec.setWidth_eq, List.cons_append, ← hws, ← hw]
    · cases hd.symm.trans h
      exact ⟨hwf, by rw [hj, List.singleton_append]⟩

/-! ## Illegal words -/

theorem decode_eq_illegal_iff (w : Word) (rest : List Word) : decode (w :: rest) = .illegal ↔ IllegalWord w := by
  refine ⟨fun h => ?_, fun h => decode_of_illegalWord h rest⟩
  rcases decode_cons_cases w rest with ⟨hw, -⟩ | ⟨-, -, -, hd⟩ | ⟨-, -, i, -, -, hd⟩
  · exact hw
  · rcases decodeXfw_cases w rest with ⟨-, hx⟩ | ⟨bytes, rest', -, -, hx⟩ <;> cases (hd.trans hx).symm.trans h
  · cases hd.symm.trans h

/-- The decoder at a position of the stream reads the word there and what follows it. -/
theorem decodeAt_eq {S : List Word} {k : Nat} (hk : k < S.length) :
    decodeAt S k = decode (S.getD k 0 :: S.drop (k + 1)) := by
  rw [decodeAt, List.drop_eq_getElem_cons hk, List.getD_eq_getElem _ _ hk]

/-- Settles O4: the step raises the fault of the illegal word at `cidx`, whatever the rest of the state. -/
theorem illegalWordsFault : Obligations.IllegalWordsFault := by
  refine ⟨decode_eq_illegal_iff, fun s hl hf hc hw => ?_, Or.inl rfl⟩
  have hd : decodeAt s.stream s.cidx = .illegal := (decodeAt_eq hc).trans (decode_of_illegalWord hw _)
  exact step_illegal hl hf hc hd

/-! ## Malformed payloads -/

theorem zeroField_eq_zero_iff (d : Word) : zeroField d = 0 ↔ d.toNat / 2 ^ 8 = 0 := by
  rw [← BitVec.toNat_inj, zeroField_toNat]
  rfl

/-- A payload cannot be read exactly where a word is missing or has non-zero high bits (rule R89). -/
theorem takePayload_eq_none_iff (n : Nat) (ws : List Word) :
    takePayload n ws = none ↔ ws.length < n ∨ ∃ j < n, (ws.getD j 0).toNat / 2 ^ 8 ≠ 0 := by
  induction n generalizing ws with
  | zero => simp [takePayload]
  | succ n ih =>
    cases ws with
    | nil => simp [takePayload]
    | cons d ws =>
      have hstep : takePayload (n + 1) (d :: ws) = none ↔ d.toNat / 2 ^ 8 ≠ 0 ∨ takePayload n ws = none := by
        rw [ne_eq, ← zeroField_eq_zero_iff, takePayload]
        by_cases hz : zeroField d = 0 <;> cases takePayload n ws <;> simp [hz]
      rw [hstep, ih, Nat.exists_lt_succ_left, List.length_cons, Nat.add_lt_add_iff_right]
      exact or_left_comm

theorem decode_eq_malformed_iff (w : Word) (rest : List Word) :
    decode (w :: rest) = .malformed ↔
      ¬ IllegalWord w ∧ (opField w).toNat = 7 ∧ takePayload (cntField w).toNat rest = none := by
  rcases decode_cons_cases w rest with ⟨hw, hd⟩ | ⟨hw, ho, -, hd⟩ | ⟨-, ho, i, -, -, hd⟩
  · simp [hd, hw]
  · rcases decodeXfw_cases w rest with ⟨hn, hx⟩ | ⟨bytes, rest', hlen, hws, hx⟩
    · simp [hd, hx, hw, ho, hn]
    · rw [hd, hx, ← hlen, hws, takePayload_map]
      simp
  · simp [hd, ho]

theorem getD_drop_succ (S : List Word) (k j : Nat) : (S.drop (k + 1)).getD j 0 = S.getD (k + (j + 1)) 0 := by
  rw [List.getD_eq_getElem?_getD, List.getD_eq_getElem?_getD, List.getElem?_drop]
  congr 2
  omega

theorem decodeAt_eq_malformed_iff {S : List Word} {k : Nat} (hk : k < S.length) :
    decodeAt S k = .malformed ↔ MalformedAt S k := by
  rw [decodeAt_eq hk, decode_eq_malformed_iff, takePayload_eq_none_iff, opField_toNat, cntField_toNat, List.length_drop,
    MalformedAt]
  refine and_congr_right' (and_congr_right' (or_congr (by omega) ⟨?_, ?_⟩))
  · rintro ⟨j, hj, hz⟩
    exact ⟨j + 1, Nat.succ_pos j, hj, getD_drop_succ S k j ▸ hz⟩
  · rintro ⟨j, hpos, hj, hz⟩
    obtain ⟨j, rfl⟩ := Nat.exists_eq_add_of_le' hpos
    exact ⟨j, hj, (getD_drop_succ S k j).symm ▸ hz⟩

/-- Settles O5: the step raises the fault of the payload that starts at `cidx`, whatever the rest of the state. -/
theorem malformedPayloadsFault : Obligations.MalformedPayloadsFault :=
  ⟨fun _ _ => decodeAt_eq_malformed_iff,
    fun _ hl hf hc hm => step_malformed hl hf hc ((decodeAt_eq_malformed_iff hc).mpr hm)⟩

/-! ## The opcode table -/

/-- The bits below a row's mask, which hold the operands of its command. -/
def operandBits (r : OpcodeRow) : Nat :=
  if r.maskWord = 0xFFFFFF00 then 8 else if r.maskWord = 0xFFFF0000 then 16 else 0

/-- Every mask is all the bits above the operands, and every match has no bit below. -/
theorem mask_and_match_of_mem : ∀ r ∈ opcodeTable,
    r.maskWord = BitVec.allOnes 32 <<< operandBits r ∧ 2 ^ operandBits r ∣ r.matchWord.toNat := by decide

/-- A row selects the words that agree with its match above the operands (rule R85). -/
theorem selects_iff_of_mem {r : OpcodeRow} (hr : r ∈ opcodeTable) (w : Word) :
    r.selects w = true ↔ w.toNat / 2 ^ operandBits r = r.matchWord.toNat / 2 ^ operandBits r := by
  obtain ⟨hmask, hmatch⟩ := mask_and_match_of_mem r hr
  have hlt : w.toNat / 2 ^ operandBits r * 2 ^ operandBits r < 2 ^ 32 :=
    Nat.lt_of_le_of_lt (Nat.div_mul_le_self _ _) w.isLt
  rw [OpcodeRow.selects, decide_eq_true_iff, hmask, ← BitVec.shiftLeft_ushiftRight, ← BitVec.toNat_inj,
    BitVec.toNat_shiftLeft, BitVec.toNat_ushiftRight, Nat.shiftLeft_eq, Nat.shiftRight_eq_div_pow, Nat.mod_eq_of_lt hlt,
    Nat.eq_div_iff_mul_eq_left (Nat.two_pow_pos _).ne' hmatch]
  exact eq_comm

/-- A row selects the words of its `op` whose other fields stay below its mask. -/
theorem selects_formatC {r : OpcodeRow} {op : BitVec 4} {cnt : BitVec 8} {imm : Byte} (hr : r ∈ opcodeTable)
    (hop : r.matchWord.toNat = op.toNat * 2 ^ 28) (hfit : cnt.toNat * 2 ^ 8 + imm.toNat < 2 ^ operandBits r) :
    r.selects (formatC op cnt imm) = true := by
  obtain ⟨-, hmatch⟩ := mask_and_match_of_mem r hr
  rw [selects_iff_of_mem hr, formatC_toNat, ← hop, Nat.add_assoc, Nat.add_div_of_dvd_right hmatch,
    Nat.div_eq_of_lt hfit, Nat.add_zero]

theorem xfwRow_selects (n a : Byte) : opcodeTable[6].selects (formatC 7 n a) = true := by
  have hfit : n.toNat * 2 ^ 8 + a.toNat < 2 ^ 16 := by omega
  exact selects_formatC (by decide) rfl hfit

/-- Each row fixes an assigned `op`, `rsv` = 0 and 0 in the fields its command does not use. -/
theorem legal_of_selects {r : OpcodeRow} {w : Word} (hr : r ∈ opcodeTable) (hs : r.selects w = true) :
    ¬ IllegalWord w := by
  have hq := (selects_iff_of_mem hr w).mp hs
  simp only [opcodeTable, List.mem_cons, List.not_mem_nil, or_false] at hr
  rcases hr with rfl | rfl | rfl | rfl | rfl | rfl | rfl | rfl <;>
    (simp [operandBits] at hq; simp [IllegalWord]; omega)

/-- Every mask covers `op`, so a row selects only words of its own `op`. -/
theorem opField_of_selects {r : OpcodeRow} {w : Word} (hr : r ∈ opcodeTable) (hs : r.selects w = true) :
    opField w = opField r.matchWord := by
  have htable : ∀ r ∈ opcodeTable, opField r.maskWord = BitVec.allOnes 4 := by decide
  have hand : opField (w &&& r.maskWord) = opField w &&& opField r.maskWord := BitVec.extractLsb'_and
  rw [← of_decide_eq_true hs, hand, htable r hr, BitVec.and_allOnes]

/-- The rows have different values of `op`, so a word selects at most one. -/
theorem selectedRows_eq_singleton {r : OpcodeRow} {w : Word} (hr : r ∈ opcodeTable) (hs : r.selects w = true) :
    opcodeTable.filter (fun r => r.selects w) = [r] := by
  have hinj : ∀ r ∈ opcodeTable, ∀ r' ∈ opcodeTable, opField r.matchWord = opField r'.matchWord → r = r' := by
    decide
  have hone : ∀ r ∈ opcodeTable, opcodeTable.filter (fun r' => decide (r' = r)) = [r] := by decide
  rw [← hone r hr]
  refine List.filter_congr fun r' hr' => Bool.eq_iff_iff.mpr ?_
  rw [decide_eq_true_iff]
  refine ⟨fun hs' => hinj r' hr' r hr ?_, fun h => h ▸ hs⟩
  rw [← opField_of_selects hr hs, ← opField_of_selects hr' hs']

theorem encode_ne_nil (i : Instr) : encode i ≠ [] := by
  cases i <;> exact List.cons_ne_nil _ _

/-- The first word of a command selects the row of its mnemonic (rule R85). -/
theorem exists_row_of_encode {i : Instr} {w : Word} {ws : List Word} (h : encode i = w :: ws) :
    ∃ r ∈ opcodeTable, r.mnemonic = i.mnemonic ∧ r.selects w = true := by
  cases i with obtain ⟨rfl, -⟩ := List.cons.inj h
  | psb => exact ⟨opcodeTable[0], by decide, rfl, by decide⟩
  | pse => exact ⟨opcodeTable[1], by decide, rfl, by decide⟩
  | ceb => exact ⟨opcodeTable[2], by decide, rfl, by decide⟩
  | cee => exact ⟨opcodeTable[3], by decide, rfl, by decide⟩
  | send v =>
    have hfit : (0 : BitVec 8).toNat * 2 ^ 8 + v.toNat < 2 ^ 8 := by simpa using v.isLt
    exact ⟨opcodeTable[4], by decide, rfl, selects_formatC (by decide) rfl hfit⟩
  | recv => exact ⟨opcodeTable[5], by decide, rfl, by decide⟩
  | xfw a data => exact ⟨opcodeTable[6], by decide, rfl, xfwRow_selects _ a⟩
  | xfr a n =>
    have hfit : n.toNat * 2 ^ 8 + a.toNat < 2 ^ 16 := by omega
    exact ⟨opcodeTable[7], by decide, rfl, selects_formatC (by decide) rfl hfit⟩

theorem exists_row_of_legalWord {w : Word} (h : ¬ IllegalWord w) : ∃ r ∈ opcodeTable, r.selects w = true := by
  rcases legalWord_cases h with ⟨-, hw⟩ | ⟨-, i, -, hi⟩
  · exact ⟨opcodeTable[6], by decide, hw ▸ xfwRow_selects _ _⟩
  · obtain ⟨r, hr, -, hs⟩ := exists_row_of_encode hi
    exact ⟨r, hr, hs⟩

/-- Settles O3: a word selects a row exactly where it is legal, and the first word of a command the row of its mnemonic
alone. -/
theorem opcodeRowsSelect : Obligations.OpcodeRowsSelect := by
  refine fun w rest => ⟨?_, fun i rest' h => ?_⟩
  · rw [decode_eq_illegal_iff, List.filter_eq_nil_iff]
    refine ⟨fun hnone => ?_, fun hw r hr hs => legal_of_selects hr hs hw⟩
    by_contra hw
    obtain ⟨r, hr, hs⟩ := exists_row_of_legalWord hw
    exact hnone r hr hs
  · obtain ⟨-, hwords⟩ := encodeOfDecode _ _ _ h
    obtain ⟨w', ws, henc⟩ := List.exists_cons_of_ne_nil (encode_ne_nil i)
    rw [henc] at hwords
    obtain rfl : w = w' := List.head_eq_of_cons_eq hwords
    obtain ⟨r, hr, hm, hs⟩ := exists_row_of_encode henc
    exact ⟨by rw [selectedRows_eq_singleton hr hs, List.map_singleton, hm], length_of_decode h⟩

/-! ## The assembler -/

/-- The payload operands are bytes all together or not at all (rule R92). -/
theorem mapM_asByte (data : List Nat) :
    data.mapM asByte = if ∀ d ∈ data, d < 256 then some (data.map (BitVec.ofNat 8)) else none := by
  induction data with
  | nil => rfl
  | cons d data ih =>
    rw [List.mapM_cons, ih, asByte]
    simp only [List.forall_mem_cons]
    by_cases hd : d < 256
    · by_cases hds : ∀ d ∈ data, d < 256
      · rw [if_pos hd, if_pos hds, if_pos ⟨hd, hds⟩]
        rfl
      · rw [if_pos hd, if_neg hds, if_neg (not_and_of_not_right _ hds)]
        rfl
    · rw [if_neg hd, if_neg (not_and_of_not_left _ hd)]
      rfl

theorem formatD_ofNat {d : Nat} (h : d < 256) : formatD (BitVec.ofNat 8 d) = BitVec.ofNat 32 d := by
  rw [formatD, BitVec.toNat_ofNat, Nat.mod_eq_of_lt h]

theorem formatC_ofNat {n a : Nat} (op : BitVec 4) (hn : n < 256) (ha : a < 256) :
    formatC op (BitVec.ofNat 8 n) (BitVec.ofNat 8 a) = BitVec.ofNat 32 (op.toNat * 2 ^ 28 + n * 2 ^ 8 + a) := by
  rw [formatC, BitVec.toNat_ofNat, BitVec.toNat_ofNat, Nat.mod_eq_of_lt hn, Nat.mod_eq_of_lt ha]

theorem assembleLine_send (v : Nat) :
    assembleLine (.send v) = if v < 256 then some [BitVec.ofNat 32 (0x50000000 + v)] else none := by
  rw [assembleLine, asByte]
  split
  next hv => exact congrArg (fun w => some [w]) (formatC_ofNat 5 (n := 0) (by decide) hv)
  next => rfl

theorem assembleLine_xfr (a n : Nat) :
    assembleLine (.xfr a n) =
      if a < 256 ∧ n < 256 then some [BitVec.ofNat 32 (0x80000000 + n * 0x100 + a)] else none := by
  rw [assembleLine, assembleXfr, asByte, asByte]
  by_cases ha : a < 256
  · by_cases hn : n < 256
    · rw [if_pos ha, if_pos hn, if_pos ⟨ha, hn⟩]
      exact congrArg (fun w => some [w]) (formatC_ofNat 8 hn ha)
    · simp [ha, hn]
  · simp [ha]

theorem assembleLine_xfw (a : Nat) (data : List Nat) :
    assembleLine (.xfw a data) =
      if a < 256 ∧ (∀ d ∈ data, d < 256) ∧ data.length ≤ 255 then
        some (BitVec.ofNat 32 (0x70000000 + data.length * 0x100 + a) :: data.map (BitVec.ofNat 32))
      else none := by
  rw [assembleLine, assembleXfw, mapM_asByte, asByte]
  by_cases ha : a < 256
  · by_cases hd : ∀ d ∈ data, d < 256
    · rw [if_pos ha, if_pos hd]
      by_cases hl : data.length ≤ 255
      · have hhead := formatC_ofNat 7 (Nat.lt_succ_of_le hl) ha
        have htail : (data.map (BitVec.ofNat 8)).map formatD = data.map (BitVec.ofNat 32) := by
          rw [List.map_map]
          exact List.map_congr_left fun d hmem => formatD_ofNat (hd d hmem)
        rw [if_pos ⟨ha, hd, hl⟩]
        simp only [List.length_map, if_pos hl, encode, htail, hhead]
        rfl
      · rw [if_neg fun h => hl h.2.2]
        simp only [List.length_map, if_neg hl]
    · rw [if_pos ha, if_neg hd, if_neg fun h => hd h.2.1]
  · rw [if_neg ha, if_neg (not_and_of_not_left _ ha)]

/-- Settles O7: an operand that fits its field is the field. -/
theorem assemblerWords : Obligations.AssemblerWords :=
  ⟨rfl, rfl, rfl, rfl, rfl, assembleLine_send, assembleLine_xfr, assembleLine_xfw, fun _ => rfl⟩

/-- Settles O8: each pseudo-instruction is assembled as its transaction. -/
theorem pseudoInstructionsExpand : Obligations.PseudoInstructionsExpand := ⟨fun _ _ => rfl, fun _ => rfl⟩

end Sys2Proof.Machine
end

section
/-! Proofs of the statements of spec/40_pin_session.md: PSB and PSE, which commands change a pin direction, and what each
command does right after reset.

A pin keeps its direction unless an event sets it (`getDir_replay`), and the events of a command say which it sets
(`dir_mem_commandEvents`). -/

namespace Sys2Proof.Machine

open Sys2Proof.Safety

/-! ## Which fault a command raises -/

/-- A command that completes meets none of the fault conditions (rule R213 to rule R218). -/
theorem find?_faultConditions_of_runs {i : Instr} {s : State} (h : Runs i s) :
    (faultConditions i s).find? (fun c => c.2) = none := by
  cases i with
  | psb =>
    have hp : s.psActive = false := h
    simp [faultConditions, hp]
  | pse | ceb | xfw | xfr =>
    obtain ⟨hp, hc⟩ := h
    simp [faultConditions, hp, hc]
  | cee | send =>
    obtain ⟨h1, h2⟩ := h
    simp [faultConditions, h1, h2]
  | recv => rcases h with h | h <;> simp [faultConditions, h]

/-- The first fault condition that holds decides (rule R221), and fault entry changes the fault registers only. -/
theorem exec_of_find?_faultConditions {i : Instr} {s : State} {c : BitVec 4 × Bool}
    (h : (faultConditions i s).find? (fun c => c.2) = some c) : exec i s = .next (withFault c.1 s) := by
  have hr : ¬ Runs i s := fun hr => by simp [find?_faultConditions_of_runs hr] at h
  obtain ⟨cause, hfirst, he⟩ := exec_of_not_runs hr
  obtain rfl : c = (causeCode cause, true) := Option.some.inj (h.symm.trans hfirst)
  rw [he, raise_eq]

/-! ## The effect of a command that receives nothing -/

theorem effect_eq_of_receivedBytes_zero {i : Instr} (h : receivedBytes i = 0) (s : State) :
    effect i s =
      { s with
        pins := replay s.pins (commandEvents (drawAt s) i)
        trace := s.trace ++ commandEvents (drawAt s) i
        cidx := s.cidx + i.words
        psActive := psActiveAfter i s.psActive
        ses := phaseAfter i s.ses } := by
  simp [effect, withEvents, h, bytesOf_zero]

/-! ## PSB and PSE -/

/-- Settles O14: the five events, replayed on any pins, leave all but the DIO latch determined. -/
theorem psbConfiguresPins : Obligations.PsbConfiguresPins := by
  refine ⟨rfl, fun s hp => ?_, fun s hp => ?_, _, exec_psb rfl, rfl, rfl⟩
  · exact exec_of_find?_faultConditions (c := (3, true)) (by simp [faultConditions, hp])
  · rw [exec_psb hp, effect_eq_of_receivedBytes_zero rfl]
    rfl

/-- The events of PSE on pins that are idle already (rule R27, rule R121). -/
theorem replay_pse_of_idle {p : Pins} (h : Idle p) (l : Nat → Level) : replay p (commandEvents l .pse) = p := by
  obtain ⟨hdirDio, -, hlatClk, -, hlatCe⟩ := h
  cases p
  simp only at hdirDio hlatClk hlatCe
  subst hdirDio hlatClk hlatCe
  rfl

/-- Settles O15: both refusals are conditions of code 3, and the three events change nothing on idle pins. -/
theorem pseIdlesPins : Obligations.PseIdlesPins := by
  refine ⟨rfl, fun s hps => ?_, fun s hp hc => ?_, fun s t hidle h => ?_, ?_⟩
  · refine exec_of_find?_faultConditions (c := (3, true)) ?_
    rcases hps with hp | hc
    · simp [faultConditions, hp]
    · simp [faultConditions, hc]
  · rw [exec_pse ⟨hp, hc⟩, effect_eq_of_receivedBytes_zero rfl]
    rfl
  · rcases exec_cases h with ⟨-, rfl⟩ | ⟨-, c, -, rfl⟩
    · rw [effect_pins, replay_pse_of_idle hidle]
    · rfl
  · have hpsb : Runs .psb State.reset := rfl
    have hpse : Runs .pse (effect .psb State.reset) := ⟨rfl, rfl⟩
    refine ⟨effect .pse (effect .psb State.reset), ?_, rfl, rfl⟩
    rw [runAll_of_runs hpsb rfl, runAll_of_runs hpse rfl, runAll]

/-! ## Pin directions -/

/-- A pin keeps its direction unless an event sets it (rule R22). -/
theorem getDir_replay {r : Role} {es : List Event} (h : ∀ d, Event.dir r d ∉ es) (p : Pins) :
    getDir (replay p es) r = getDir p r := by
  induction es generalizing p with
  | nil => rfl
  | cons e es ih =>
    have htail : ∀ d, Event.dir r d ∉ es := fun d hd => h d (List.mem_cons_of_mem e hd)
    rw [replay_cons, ih htail]
    cases e with
    | dir q d =>
      have hq : r ≠ q := by
        rintro rfl
        exact h d List.mem_cons_self
      rw [applyEvent, getDir_setDir, if_neg hq]
    | wr q l => exact getDir_setLat p q r _
    | rd | dly => rfl

/-- A direction that a command changed was set by one of its events. -/
theorem exists_dir_mem_of_getDir_effect_ne {i : Instr} {s : State} {r : Role}
    (h : getDir (effect i s).pins r ≠ getDir s.pins r) : ∃ d, Event.dir r d ∈ commandEvents (drawAt s) i := by
  by_contra hnone
  exact h (getDir_replay (not_exists.mp hnone) s.pins)

theorem role_eq_dio_of_mem_sendEvents {v : Byte} {r : Role} {d : Direction} (h : Event.dir r d ∈ sendEvents v) :
    r = .dio := by
  simp_all [sendEvents, pulseEvents]

theorem role_eq_dio_of_mem_recvEvents {l : Nat → Level} {r : Role} {d : Direction}
    (h : Event.dir r d ∈ recvEvents l) : r = .dio := by
  simp_all [recvEvents, pulseEvents]

theorem role_eq_dio_of_mem_closeEvents {r : Role} {d : Direction} (h : Event.dir r d ∈ closeEvents) : r = .dio := by
  simp_all [closeEvents]

/-- Who sets a direction (rule R122): PSB sets all three, CEB none, and every other command that of DIO only. -/
theorem dir_mem_commandEvents {i : Instr} {l : Nat → Level} {r : Role} {d : Direction}
    (h : Event.dir r d ∈ commandEvents l i) : i = .psb ∨ r = .dio ∧ i ≠ .ceb := by
  cases i with
  | psb => exact Or.inl rfl
  | pse => exact Or.inr ⟨by simp_all [commandEvents], nofun⟩
  | ceb => simp [commandEvents] at h
  | cee => exact Or.inr ⟨role_eq_dio_of_mem_closeEvents h, nofun⟩
  | send v => exact Or.inr ⟨role_eq_dio_of_mem_sendEvents h, nofun⟩
  | recv => exact Or.inr ⟨role_eq_dio_of_mem_recvEvents h, nofun⟩
  | xfw a data =>
    refine Or.inr ⟨?_, nofun⟩
    simp only [commandEvents, xfwEvents, List.mem_cons, List.mem_append, List.mem_flatMap, reduceCtorEq, false_or] at h
    obtain (h | ⟨b, -, h⟩) | h := h
    · exact role_eq_dio_of_mem_sendEvents h
    · exact role_eq_dio_of_mem_sendEvents h
    · exact role_eq_dio_of_mem_closeEvents h
  | xfr a n =>
    refine Or.inr ⟨?_, nofun⟩
    simp only [commandEvents, xfrEvents, recvsEvents, List.mem_cons, List.mem_append, List.mem_flatMap, reduceCtorEq,
      false_or, Event.dir.injEq] at h
    obtain (h | ⟨h, -⟩ | ⟨j, -, h⟩) | h := h
    · exact role_eq_dio_of_mem_sendEvents h
    · exact h
    · exact role_eq_dio_of_mem_recvEvents h
    · exact role_eq_dio_of_mem_closeEvents h

/-- Settles O36: a command that runs changes a direction only by an event of its own, one that faults changes none. -/
theorem directionsChangeOnlyThere : Obligations.DirectionsChangeOnlyThere := by
  intro i s t h
  rcases exec_cases h with ⟨-, rfl⟩ | ⟨-, c, -, rfl⟩
  · have hpsb {r : Role} {d : Direction} (hd : Event.dir r d ∈ commandEvents (drawAt s) i) (hr : r ≠ .dio) :
        i = .psb := (dir_mem_commandEvents hd).resolve_right fun hdio => hr hdio.1
    have hceb {r : Role} {d : Direction} (hd : Event.dir r d ∈ commandEvents (drawAt s) i) : i ≠ .ceb := by
      rcases dir_mem_commandEvents hd with rfl | ⟨-, hne⟩
      · nofun
      · exact hne
    rw [newEvents_effect]
    refine ⟨fun hne => ?_, fun d hd => ?_, fun hne => ?_, fun d hd => hceb hd⟩
    · rcases hne with hne | hne
      · obtain ⟨d, hd⟩ := exists_dir_mem_of_getDir_effect_ne (r := .clk) hne
        exact hpsb hd nofun
      · obtain ⟨d, hd⟩ := exists_dir_mem_of_getDir_effect_ne (r := .ce) hne
        exact hpsb hd nofun
    · exact hd.elim (hpsb · nofun) (hpsb · nofun)
    · obtain ⟨d, hd⟩ := exists_dir_mem_of_getDir_effect_ne (r := .dio) hne
      exact hceb hd
  · have hpins : (raise c s).pins = s.pins := rfl
    simp [newEvents_raise, hpins]

/-! ## After reset -/

/-- Settles O28: at reset PSB runs, and every other command meets its first fault condition. -/
theorem afterResetOnlyPsb : Obligations.AfterResetOnlyPsb := by
  intro i
  cases i with
  | psb => exact ⟨_, exec_psb rfl, rfl⟩
  | pse | ceb | cee | send | recv | xfw | xfr => exact ⟨_, exec_of_find?_faultConditions rfl, rfl⟩

end Sys2Proof.Machine
end

section
/-! Proofs of the statements of spec/41_session_framing.md: CEB and CEE, the writes of CE, and the session grammar.

Inside a session a list of SENDs and RECVs is read phase by phase: WRITING and READING take one command only and are
kept by it (`isSome_runAll_of_stable`), and the phases before them are one command away (`isSome_runAll_cons`). Every
SEND and RECV leaves a phase in which CEE runs (`runs_cee_effect`). -/

namespace Sys2Proof.Machine

open Sys2Proof.Safety

/-! ## CEB and CEE -/

theorem exec_ceb_of_psActive_false {s : State} (hp : s.psActive = false) : exec .ceb s = .next (withFault 4 s) :=
  exec_of_find?_faultConditions (c := (4, true)) (by simp [faultConditions, hp])

theorem exec_ceb_of_open {s : State} (hp : s.psActive = true) (hc : s.ses ≠ .closed) :
    exec .ceb s = .next (withFault 5 s) :=
  exec_of_find?_faultConditions (c := (5, true)) (by simp [faultConditions, hp, hc])

theorem exec_cee_of_closed {s : State} (hc : s.ses = .closed) : exec .cee s = .next (withFault 6 s) :=
  exec_of_find?_faultConditions (c := (6, true)) (by simp [faultConditions, hc])

theorem exec_cee_of_openEmpty {s : State} (hc : s.ses = .openEmpty) : exec .cee s = .next (withFault 7 s) :=
  exec_of_find?_faultConditions (c := (7, true)) (by simp [faultConditions, hc])

/-- Settles O16: the two refusals are the conditions of codes 4 and 5; the one event sets the CE latch. -/
theorem cebOpensSession : Obligations.CebOpensSession := by
  refine ⟨rfl, fun s hp => exec_ceb_of_psActive_false hp, fun s hp hc => exec_ceb_of_open hp hc, fun s hp hc => ?_, ?_⟩
  · rw [exec_ceb ⟨hp, hc⟩, effect_eq_of_receivedBytes_zero rfl]
    rfl
  · have hpsb : Runs .psb State.reset := rfl
    have hceb : Runs .ceb (effect .psb State.reset) := ⟨rfl, rfl⟩
    refine ⟨effect .ceb (effect .psb State.reset), ?_, rfl⟩
    rw [runAll_of_runs hpsb rfl, runAll_of_runs hceb rfl, runAll]

/-- Settles O17: the two refusals are the conditions of codes 6 and 7; the two events set the CE latch and turn DIO. -/
theorem ceeClosesSession : Obligations.CeeClosesSession := by
  refine ⟨rfl, fun s hc => exec_cee_of_closed hc, fun s hc => exec_cee_of_openEmpty hc, fun s h1 h2 => ?_, ?_⟩
  · rw [exec_cee ⟨h1, h2⟩, effect_eq_of_receivedBytes_zero rfl]
    rfl
  · have hpsb : Runs .psb State.reset := rfl
    have hceb : Runs .ceb (effect .psb State.reset) := ⟨rfl, rfl⟩
    have hsend : Runs (.send 0xC1) (effect .ceb (effect .psb State.reset)) := ⟨nofun, nofun⟩
    have hcee : Runs .cee (effect (.send 0xC1) (effect .ceb (effect .psb State.reset))) := ⟨nofun, nofun⟩
    refine ⟨effect .cee (effect (.send 0xC1) (effect .ceb (effect .psb State.reset))), ?_, rfl⟩
    rw [runAll_of_runs hpsb rfl, runAll_of_runs hceb rfl, runAll_of_runs hsend rfl, runAll_of_runs hcee rfl, runAll]

/-! ## The writes of CE -/

theorem ceWrites_sendEvents (v : Byte) : (sendEvents v).filterMap ceWrite = [] := rfl

theorem ceWrites_recvEvents (l : Nat → Level) : (recvEvents l).filterMap ceWrite = [] := rfl

theorem ceWrites_closeEvents : closeEvents.filterMap ceWrite = [.low] := rfl

theorem ceWrites_sends (data : List Byte) : (data.flatMap sendEvents).filterMap ceWrite = [] := by
  simp [List.filterMap_flatMap, ceWrites_sendEvents]

theorem ceWrites_recvsEvents (l : Nat → Level) (n : Nat) : (recvsEvents l n).filterMap ceWrite = [] := by
  simp [recvsEvents, List.filterMap_flatMap, ceWrites_recvEvents]

/-- The levels a command writes to CE: the bytes it transfers write none (rule R77, rule R142). -/
theorem ceWrites_commandEvents (l : Nat → Level) (i : Instr) :
    (commandEvents l i).filterMap ceWrite = ceWrites i := by
  cases i with
  | psb | pse | ceb | cee | send | recv => rfl
  | xfw a data =>
    rw [commandEvents, xfwEvents, List.filterMap_cons, List.filterMap_append, List.filterMap_append,
      ceWrites_sendEvents, ceWrites_sends, ceWrites_closeEvents]
    rfl
  | xfr a n =>
    rw [commandEvents, xfrEvents, List.filterMap_cons, List.filterMap_append, List.filterMap_append,
      List.filterMap_cons_none rfl, ceWrites_sendEvents, ceWrites_recvsEvents, ceWrites_closeEvents]
    rfl

/-- Settles O43: a command that completes appends its events and no others. -/
theorem ceWritesPerCommand : Obligations.CeWritesPerCommand := by
  intro i s t h
  obtain ⟨-, -, rfl⟩ := completes_iff.mp h
  rw [newEvents_effect, ceWrites_commandEvents]

/-! ## The phase table -/

/-- A command that runs goes to the phase `phaseAfter` names, the pin session kept but by PSB and PSE. -/
theorem follows_to_of_runs {i : Instr} {s : State} (h : Runs i s) (hi : psActiveAfter i s.psActive = s.psActive) :
    Follows (.to (phaseAfter i s.ses)) i s :=
  ⟨effect i s, exec_of_runs h, rfl, hi, rfl⟩

/-- A command that meets a fault condition first raises its code. -/
theorem follows_fault_of_find? {i : Instr} {s : State} {code : BitVec 4}
    (h : (faultConditions i s).find? (fun c => c.2) = some (code, true)) : Follows (.fault code) i s :=
  exec_of_find?_faultConditions h

theorem follows_grammarCeb {s : State} (hp : s.psActive = true) : Follows (grammarCeb s.ses) .ceb s := by
  cases hs : s.ses with
  | closed => exact follows_to_of_runs (i := .ceb) ⟨hp, hs⟩ rfl
  | openEmpty | cmdSent | writing | reading => exact exec_ceb_of_open hp (by simp [hs])

theorem follows_grammarCee (s : State) : Follows (grammarCee s.ses) .cee s := by
  cases hs : s.ses with
  | closed => exact exec_cee_of_closed hs
  | openEmpty => exact exec_cee_of_openEmpty hs
  | cmdSent | writing | reading => exact follows_to_of_runs (i := .cee) (by simp [Runs, hs]) rfl

theorem follows_grammarSend (v : Byte) (s : State) : Follows (grammarSend s.ses) (.send v) s := by
  cases hs : s.ses with
  | closed | reading => exact follows_fault_of_find? (by simp [faultConditions, hs])
  | openEmpty | cmdSent | writing =>
    have hrun := follows_to_of_runs (i := .send v) (s := s) (by simp [Runs, hs]) rfl
    rwa [hs] at hrun

theorem follows_grammarRecv (s : State) : Follows (grammarRecv s.ses) .recv s := by
  cases hs : s.ses with
  | closed | openEmpty | writing => exact follows_fault_of_find? (by simp [faultConditions, hs])
  | cmdSent | reading => exact follows_to_of_runs (i := .recv) (by simp [Runs, hs]) rfl

/-! ## The byte sequences of a session -/

theorem isTransfer_iff {i : Instr} : isTransfer i = true ↔ (∃ v, i = .send v) ∨ i = .recv := by
  cases i <;> simp [isTransfer]

/-- The bytes of a session: the command byte, then data bytes only or RECVs only (rule R144). -/
theorem sessionBytes_cons_iff {i : Instr} {is : List Instr} :
    SessionBytes (i :: is) ↔
      (∃ v, i = .send v) ∧ ((∀ j ∈ is, ∃ v, j = .send v) ∨ ∀ j ∈ is, j = .recv) := by
  have hdata : (∀ j ∈ is, ∃ v, j = .send v) ↔ ∃ data : List Byte, is = data.map .send := by
    have := Set.ext_iff.mp (Set.range_list_map Instr.send) is
    simpa [eq_comm] using this.symm
  have hrecv : (∀ j ∈ is, j = .recv) ↔ ∃ n, is = List.replicate n .recv := by
    simp [List.eq_replicate_iff]
  rw [hdata, hrecv]
  simp [SessionBytes, and_or_left, exists_or]

theorem not_sessionBytes_nil : ¬ SessionBytes [] := by simp [SessionBytes]

theorem faultCode_effect_of_zero {i : Instr} {s : State} (hf : s.faultCode = 0) : (effect i s).faultCode = 0 :=
  (effect_faultCode i s).trans hf

theorem isSome_runAll_cons {i : Instr} {is : List Instr} {s : State} (hf : s.faultCode = 0) :
    (runAll (i :: is) s).isSome = true ↔ Runs i s ∧ (runAll is (effect i s)).isSome = true := by
  by_cases h : Runs i s
  · simp [runAll_of_runs h hf, h]
  · simp [runAll_of_not_runs h, h]

/-- In a phase that the commands it admits keep, a list completes exactly where it admits every one of them. -/
theorem isSome_runAll_of_stable {p : Phase} {P : Instr → Prop}
    (hruns : ∀ i s, isTransfer i = true → s.ses = p → (Runs i s ↔ P i)) (hstay : ∀ i, P i → phaseAfter i p = p)
    {is : List Instr} {s : State} (hf : s.faultCode = 0) (hs : s.ses = p) (his : ∀ i ∈ is, isTransfer i = true) :
    (runAll is s).isSome = true ↔ ∀ i ∈ is, P i := by
  induction is generalizing s with
  | nil => simp [runAll]
  | cons i is ih =>
    obtain ⟨hi, his⟩ := List.forall_mem_cons.mp his
    rw [isSome_runAll_cons hf, hruns i s hi hs, List.forall_mem_cons]
    refine and_congr_right fun hP => ih (faultCode_effect_of_zero hf) ?_ his
    rw [effect_ses, hs, hstay i hP]

section
variable {is : List Instr} {s : State} (hf : s.faultCode = 0) (his : ∀ i ∈ is, isTransfer i = true)
include hf his

/-- A write session goes on with SENDs only. -/
theorem isSome_runAll_writing (hs : s.ses = .writing) :
    (runAll is s).isSome = true ↔ ∀ i ∈ is, ∃ v, i = .send v := by
  refine isSome_runAll_of_stable (fun i s hi hs => ?_) ?_ hf hs his
  · obtain ⟨v, rfl⟩ | rfl := isTransfer_iff.mp hi <;> simp [Runs, hs]
  · rintro _ ⟨v, rfl⟩
    rfl

/-- A read session goes on with RECVs only. -/
theorem isSome_runAll_reading (hs : s.ses = .reading) : (runAll is s).isSome = true ↔ ∀ i ∈ is, i = .recv := by
  refine isSome_runAll_of_stable (fun i s hi hs => ?_) ?_ hf hs his
  · obtain ⟨v, rfl⟩ | rfl := isTransfer_iff.mp hi <;> simp [Runs, hs]
  · rintro _ rfl
    rfl

/-- The command after the command byte decides whether the session writes or reads. -/
theorem isSome_runAll_cmdSent (hs : s.ses = .cmdSent) :
    (runAll is s).isSome = true ↔ (∀ i ∈ is, ∃ v, i = .send v) ∨ ∀ i ∈ is, i = .recv := by
  cases is with
  | nil => simp [runAll]
  | cons i is =>
    obtain ⟨hi, htail⟩ := List.forall_mem_cons.mp his
    rw [isSome_runAll_cons hf]
    obtain ⟨v, rfl⟩ | rfl := isTransfer_iff.mp hi
    · have hnext : (effect (.send v) s).ses = .writing := by rw [effect_ses, hs]; rfl
      rw [isSome_runAll_writing (faultCode_effect_of_zero hf) htail hnext]
      simp [Runs, hs]
    · rw [isSome_runAll_reading (s := effect .recv s) (faultCode_effect_of_zero hf) htail rfl]
      simp [Runs, hs]

/-- From OPEN_EMPTY the first byte is the command byte. -/
theorem isSome_runAll_openEmpty (hs : s.ses = .openEmpty) :
    (runAll is s).isSome = true ↔ is = [] ∨ SessionBytes is := by
  cases is with
  | nil => simp [runAll]
  | cons i is =>
    obtain ⟨hi, htail⟩ := List.forall_mem_cons.mp his
    rw [isSome_runAll_cons hf, sessionBytes_cons_iff]
    obtain ⟨v, rfl⟩ | rfl := isTransfer_iff.mp hi
    · have hnext : (effect (.send v) s).ses = .cmdSent := by rw [effect_ses, hs]; rfl
      rw [isSome_runAll_cmdSent (faultCode_effect_of_zero hf) htail hnext]
      simp [Runs, hs]
    · simp [Runs, hs]

end

/-- After a SEND or RECV the session can be closed. -/
theorem runs_cee_effect {i : Instr} (hi : isTransfer i = true) (s : State) : Runs .cee (effect i s) := by
  obtain ⟨v, rfl⟩ | rfl := isTransfer_iff.mp hi
  · rcases phaseAfterSend_eq s.ses with h | h <;> simp [Runs, phaseAfter, h]
  · exact ⟨nofun, nofun⟩

/-- Where CEE runs, it runs after any list of SENDs and RECVs that completes too. -/
theorem isSome_runAll_append_cee {is : List Instr} {s : State} (hf : s.faultCode = 0) (h : Runs .cee s)
    (his : ∀ i ∈ is, isTransfer i = true) :
    (runAll (is ++ [.cee]) s).isSome = true ↔ (runAll is s).isSome = true := by
  induction is generalizing s with
  | nil => rw [List.nil_append, runAll_of_runs h hf]; rfl
  | cons i is ih =>
    obtain ⟨hi, his⟩ := List.forall_mem_cons.mp his
    rw [List.cons_append, isSome_runAll_cons hf, isSome_runAll_cons hf,
      ih (faultCode_effect_of_zero hf) (runs_cee_effect hi s) his]

/-- A whole session, from CEB to CEE: one with no command byte does not close (rule R217). -/
theorem isSome_runAll_session {is : List Instr} {s : State} (hf : s.faultCode = 0) (hp : s.psActive = true)
    (hc : s.ses = .closed) (his : ∀ i ∈ is, isTransfer i = true) :
    (runAll (.ceb :: (is ++ [.cee])) s).isSome = true ↔ SessionBytes is := by
  rw [runAll_of_runs (i := .ceb) ⟨hp, hc⟩ hf]
  have hopen : (effect .ceb s).ses = .openEmpty := rfl
  have hfault : (effect .ceb s).faultCode = 0 := faultCode_effect_of_zero hf
  cases is with
  | nil =>
    have hcee : ¬ Runs .cee (effect .ceb s) := fun h => h.2 hopen
    rw [List.nil_append, runAll_of_not_runs hcee]
    simp [not_sessionBytes_nil]
  | cons i is =>
    obtain ⟨hi, htail⟩ := List.forall_mem_cons.mp his
    have hclose := isSome_runAll_append_cee (faultCode_effect_of_zero hfault) (runs_cee_effect hi _) htail
    rw [List.cons_append, isSome_runAll_cons hfault, hclose, ← isSome_runAll_cons hfault,
      isSome_runAll_openEmpty hfault his hopen]
    simp

/-- Settles O39: the four columns of the table, then the sequences from OPEN_EMPTY and from CEB to CEE. -/
theorem sessionGrammar : Obligations.SessionGrammar := by
  refine ⟨fun s => ⟨follows_grammarCeb, follows_grammarCee s, (follows_grammarSend · s), follows_grammarRecv s⟩,
    fun s hp _ => exec_ceb_of_psActive_false hp, fun s is hf hs his => ?_, fun s is hf hp hc his => ?_⟩
  · exact isSome_runAll_openEmpty hf (List.all_eq_true.mp his) hs
  · exact isSome_runAll_session hf hp hc (List.all_eq_true.mp his)

end Sys2Proof.Machine
end

section
/-! Proofs of the statements of spec/42_byte_transfer.md: SEND and RECV, the order of the bits, the pulses, the common shape
of the two, and what a peripheral samples.

A SEND and a RECV are one turn of DIO and eight groups of one DIO event and one pulse (`sendEvents_eq_groups`,
`recvEvents_eq_groups`). What a peripheral samples is said of one group, from any pins that drive DIO with CE High, and
carried over the groups by induction (`sampledAt_writeGroups`). -/

namespace Sys2Proof.Machine

open Sys2Proof.Safety

/-! ## The groups of a byte -/

theorem sendEvents_eq_groups (v : Byte) :
    sendEvents v = .dir .dio .output :: (byteLevels v).flatMap fun l => .wr .dio l :: pulseEvents := by
  rw [sendEvents, byteLevels, List.flatMap_map]

theorem recvEvents_eq_groups (l : Nat → Level) :
    recvEvents l = .dir .dio .input :: ((List.range 8).map l).flatMap fun x => .rd .dio x :: pulseEvents := by
  rw [recvEvents, List.flatMap_map]

theorem length_byteLevels (v : Byte) : (byteLevels v).length = 8 := rfl

theorem length_sendEvents (v : Byte) : (sendEvents v).length = 41 := rfl

theorem length_recvEvents (l : Nat → Level) : (recvEvents l).length = 41 := rfl

theorem length_filter_notDelay_sendEvents (v : Byte) : ((sendEvents v).filter notDelay).length = 25 := rfl

theorem length_filter_notDelay_recvEvents (l : Nat → Level) : ((recvEvents l).filter notDelay).length = 25 := rfl

/-! ## SEND and RECV -/

theorem encode_send (v : Byte) : encode (.send v) = [0x50000000 + v.setWidth 32] := by
  have hword : formatC 5 0 v = 0x50000000 + v.setWidth 32 := by
    refine BitVec.eq_of_toNat_eq ?_
    have hv := v.isLt
    rw [formatC_toNat, BitVec.toNat_add, BitVec.toNat_setWidth]
    simp only [BitVec.ofNat_eq_ofNat, BitVec.toNat_ofNat]
    omega
  rw [encode, hword]

theorem exec_send_of_closed {v : Byte} {s : State} (hc : s.ses = .closed) : exec (.send v) s = .next (withFault 6 s) :=
  exec_of_find?_faultConditions (c := (6, true)) (by simp [faultConditions, hc])

theorem exec_send_of_reading {v : Byte} {s : State} (hr : s.ses = .reading) :
    exec (.send v) s = .next (withFault 8 s) :=
  exec_of_find?_faultConditions (c := (8, true)) (by simp [faultConditions, hr])

/-- Settles O18: the two refusals are the conditions of codes 6 and 8; the events turn DIO and leave bit 7 in its latch. -/
theorem sendTransmitsByte : Obligations.SendTransmitsByte := by
  refine fun v => ⟨encode_send v, fun s hc => exec_send_of_closed hc, fun s hr => exec_send_of_reading hr,
    fun s hc hr => ?_, length_sendEvents v, length_filter_notDelay_sendEvents v, rfl⟩
  rw [exec_send ⟨hc, hr⟩, effect_eq_of_receivedBytes_zero rfl, commandEvents, replay_sendEvents]
  rfl

theorem exec_recv_of_closed {s : State} (hc : s.ses = .closed) : exec .recv s = .next (withFault 6 s) :=
  exec_of_find?_faultConditions (c := (6, true)) (by simp [faultConditions, hc])

theorem exec_recv_of_openEmpty {s : State} (ho : s.ses = .openEmpty) : exec .recv s = .next (withFault 7 s) :=
  exec_of_find?_faultConditions (c := (7, true)) (by simp [faultConditions, ho])

theorem exec_recv_of_writing {s : State} (hw : s.ses = .writing) : exec .recv s = .next (withFault 8 s) :=
  exec_of_find?_faultConditions (c := (8, true)) (by simp [faultConditions, hw])

/-- Settles O19: the three refusals are the conditions of codes 6, 7 and 8; the one byte received is that of the draws. -/
theorem recvReceivesByte : Obligations.RecvReceivesByte := by
  refine ⟨rfl, fun s hc => exec_recv_of_closed hc, fun s ho => exec_recv_of_openEmpty ho,
    fun s hw => exec_recv_of_writing hw, fun s hs => ?_,
    fun l => ⟨length_recvEvents l, length_filter_notDelay_recvEvents l⟩, rfl, rfl, rfl⟩
  rw [exec_recv hs, effect, commandEvents, withEvents, replay_recvEvents, receivedBytes, bytesOf_one]
  rfl

/-! ## The order of the bits -/

theorem getLsbD_eq_decide (v : Byte) (i : Nat) : v.getLsbD i = decide (v.toNat / 2 ^ i % 2 = 1) :=
  Nat.testBit_eq_decide_div_mod_eq

theorem dioWrites_sendEvents (v : Byte) : (sendEvents v).filterMap dioWrite = byteLevels v := rfl

theorem filter_dioOrClkWrite_sendEvents (v : Byte) :
    (sendEvents v).filter dioOrClkWrite =
      (List.range 8).flatMap fun i => [.wr .dio (lvl (v.getLsbD i)), .wr .clk .high, .wr .clk .low] := by
  rw [sendEvents, List.filter_cons_of_neg (by decide), List.filter_flatMap]
  rfl

/-- Settles O40: of each group the write of DIO and the two writes of CLK are kept, in that order. -/
theorem bitOrderingLaw : Obligations.BitOrderingLaw := by
  intro v s t h
  obtain ⟨-, -, rfl⟩ := completes_iff.mp h
  simp only [newEvents_effect, commandEvents, ← getLsbD_eq_decide]
  exact ⟨dioWrites_sendEvents v, filter_dioOrClkWrite_sendEvents v⟩

/-! ## The clock pulses -/

/-- The levels that `n` pulses write to CLK (rule R160). -/
def pulseLevels (n : Nat) : List Level := (List.replicate n [Level.high, Level.low]).flatten

theorem pulseLevels_add (m n : Nat) : pulseLevels (m + n) = pulseLevels m ++ pulseLevels n := by
  rw [pulseLevels, List.replicate_add, List.flatten_append, pulseLevels, pulseLevels]

theorem clkWrites_sendEvents (v : Byte) : (sendEvents v).filterMap clkWrite = pulseLevels 8 := rfl

theorem clkWrites_recvEvents (l : Nat → Level) : (recvEvents l).filterMap clkWrite = pulseLevels 8 := rfl

theorem clkWrites_closeEvents : closeEvents.filterMap clkWrite = [] := rfl

theorem clkWrites_sends (data : List Byte) :
    (data.flatMap sendEvents).filterMap clkWrite = pulseLevels (8 * data.length) := by
  induction data with
  | nil => rfl
  | cons d data ih =>
    rw [List.flatMap_cons, List.filterMap_append, clkWrites_sendEvents, ih, ← pulseLevels_add, List.length_cons,
      Nat.mul_succ, Nat.add_comm]

theorem clkWrites_recvsEvents (l : Nat → Level) (n : Nat) :
    (recvsEvents l n).filterMap clkWrite = pulseLevels (8 * n) := by
  induction n generalizing l with
  | zero => rfl
  | succ n ih =>
    rw [recvsEvents_succ, List.filterMap_append, clkWrites_recvEvents, ih, ← pulseLevels_add, Nat.mul_succ, Nat.add_comm]

/-- The levels a command other than PSB and PSE writes to CLK: eight pulses for every byte, and no more (rule R164). -/
theorem clkWrites_commandEvents {i : Instr} (hpsb : i ≠ .psb) (hpse : i ≠ .pse) (l : Nat → Level) :
    (commandEvents l i).filterMap clkWrite = pulseLevels (8 * wireBytes i) := by
  cases i with
  | psb => exact absurd rfl hpsb
  | pse => exact absurd rfl hpse
  | ceb | cee | send | recv => rfl
  | xfw a data =>
    rw [commandEvents, xfwEvents, List.filterMap_cons_none rfl, List.filterMap_append, List.filterMap_append,
      clkWrites_sendEvents, clkWrites_sends, clkWrites_closeEvents, List.append_nil, ← pulseLevels_add, wireBytes,
      Nat.mul_succ, Nat.add_comm]
  | xfr a n =>
    rw [commandEvents, xfrEvents, List.filterMap_cons_none rfl, List.filterMap_append, List.filterMap_append,
      List.filterMap_cons_none rfl, clkWrites_sendEvents, clkWrites_recvsEvents, clkWrites_closeEvents,
      List.append_nil, ← pulseLevels_add, wireBytes, Nat.mul_succ, Nat.add_comm]

/-- Settles O41: a command that completes appends its events, and those of PSB and PSE write CLK Low once. -/
theorem pulseCountLaw : Obligations.PulseCountLaw := by
  intro i s t h
  obtain ⟨-, -, rfl⟩ := completes_iff.mp h
  rw [newEvents_effect]
  refine ⟨fun hpsb hpse => clkWrites_commandEvents hpsb hpse _, ?_⟩
  rintro (rfl | rfl) <;> rfl

/-! ## The common shape -/

/-- Settles O42: both lists are given by their groups, with the bits sent and the levels drawn. -/
theorem sendRecvSameShape : Obligations.SendRecvSameShape := by
  intro v s t s' t' hsend hrecv
  obtain ⟨-, -, rfl⟩ := completes_iff.mp hsend
  obtain ⟨-, -, rfl⟩ := completes_iff.mp hrecv
  simp only [newEvents_effect, commandEvents]
  exact ⟨⟨byteLevels v, length_byteLevels v, sendEvents_eq_groups v⟩,
    ⟨(List.range 8).map (drawAt s'), rfl, recvEvents_eq_groups _⟩,
    length_sendEvents v, length_recvEvents _, length_filter_notDelay_sendEvents v, length_filter_notDelay_recvEvents _,
    (clkWrites_sendEvents v).trans (clkWrites_recvEvents _).symm⟩

/-! ## Sampling at a clock edge -/

theorem sampledAt_append (edge : Level) (p : Pins) (es fs : List Event) :
    sampledAt edge p (es ++ fs) = sampledAt edge p es ++ sampledAt edge (replay p es) fs := by
  induction es generalizing p with
  | nil => rfl
  | cons e es ih =>
    rw [List.cons_append, sampledAt, sampledAt, ih, replay_cons]
    split <;> rfl

theorem sampledAt_cons_of_clkWrite_none {e : Event} (he : clkWrite e = none) (edge : Level) (p : Pins)
    (es : List Event) : sampledAt edge p (e :: es) = sampledAt edge (applyEvent p e) es := by
  simp [sampledAt, he]

/-- One group holds its level on DIO at both edges of its pulse, and keeps DIO driven and CE High. -/
theorem sampledAt_writeGroup {p : Pins} (hd : p.dirDio = .known .output) (hc : p.latCe = .known .high)
    (edge l : Level) : sampledAt edge p (.wr .dio l :: pulseEvents) = [.known l] := by
  cases edge <;> simp [pulseEvents, sampledAt, clkWrite, applyEvent, setLat, hd, hc]

theorem sampledAt_writeGroups {p : Pins} (hd : p.dirDio = .known .output) (hc : p.latCe = .known .high)
    (edge : Level) (ls : List Level) :
    sampledAt edge p (ls.flatMap fun l => .wr .dio l :: pulseEvents) = ls.map .known := by
  induction ls generalizing p with
  | nil => rfl
  | cons l ls ih =>
    have hrest := ih (p := replay p (.wr .dio l :: pulseEvents)) hd hc
    rw [List.flatMap_cons, sampledAt_append, sampledAt_writeGroup hd hc, hrest]
    rfl

/-- With CE High the bits of a byte sent are what a peripheral samples at either edge (rule R165). -/
theorem sampledAt_sendEvents {p : Pins} (hc : p.latCe = .known .high) (edge : Level) (v : Byte) :
    sampledAt edge p (sendEvents v) = (byteLevels v).map .known := by
  rw [sendEvents_eq_groups, sampledAt_cons_of_clkWrite_none rfl]
  exact sampledAt_writeGroups (p := setDir p .dio (.known .output)) rfl hc edge _

/-- Settles O44: SEND turns DIO to Output before its first group and never writes CE. -/
theorem sendIsSampledAtBothEdges : Obligations.SendIsSampledAtBothEdges := by
  intro v s t hc h edge
  obtain ⟨-, -, rfl⟩ := completes_iff.mp h
  rw [newEvents_effect, commandEvents, sampledAt_sendEvents hc, byteLevels, List.map_map]
  rfl

end Sys2Proof.Machine
end

section
/-! Proofs of the statements of spec/43_transactions.md: XFW and XFR, what a write session puts on the wire, and both
against their primitive sequences.

A list of commands inside one pin session does what one command does: it appends events, moves `cidx`, ends in a phase
and receives bytes (`span`). Two spans in a row are one (`span_span`), so a transaction and its primitive sequence are
two spans from the same state (`exec_xfw_eq_span`, `runAll_writeSession`; `exec_xfr_eq_span`, `runAll_readSession`), and
they differ where their events and words do. -/

namespace Sys2Proof.Machine

open Sys2Proof.Safety

/-! ## Spans of commands -/

/-- The state after commands of `k` words in all, none of them PSB or PSE, that append the events `es`, receive `n`
bytes and end in the phase `p`. -/
def span (es : List Event) (k : Nat) (p : Phase) (n : Nat) (s : State) : State :=
  { withEvents es s with
    cidx := s.cidx + k
    ses := p
    acc := (bytesOf (drawAt s) n).getLastD s.acc
    rx := s.rx ++ bytesOf (drawAt s) n
    draws := s.draws.drop (8 * n)
    drawCount := s.drawCount + 8 * n }

theorem span_cidx (es : List Event) (k : Nat) (p : Phase) (n : Nat) (s : State) :
    (span es k p n s).cidx = s.cidx + k := rfl

theorem span_ses (es : List Event) (k : Nat) (p : Phase) (n : Nat) (s : State) :
    (span es k p n s).ses = p := rfl

theorem span_faultCode (es : List Event) (k : Nat) (p : Phase) (n : Nat) (s : State) :
    (span es k p n s).faultCode = s.faultCode := rfl

/-- Spans that leave the same pins differ in the trace and `cidx` only. -/
theorem span_eq_of_replay_eq {es fs : List Event} {s : State} (h : replay s.pins es = replay s.pins fs) (j k : Nat)
    (p : Phase) (n : Nat) :
    span es j p n s = { span fs k p n s with trace := s.trace ++ es, cidx := s.cidx + j } := by
  rw [span, withEvents, h]
  rfl

/-- A command other than PSB and PSE is a span of its own. -/
theorem effect_eq_span {i : Instr} {s : State} (h : psActiveAfter i s.psActive = s.psActive) :
    effect i s = span (commandEvents (drawAt s) i) i.words (phaseAfter i s.ses) (receivedBytes i) s := by
  rw [effect, h]
  rfl

theorem effect_ceb (s : State) : effect .ceb s = span [.wr .ce .high] 1 .openEmpty 0 s :=
  effect_eq_span (i := .ceb) (s := s) rfl

theorem effect_cee (s : State) : effect .cee s = span closeEvents 1 .closed 0 s :=
  effect_eq_span (i := .cee) (s := s) rfl

theorem effect_send (v : Byte) (s : State) :
    effect (.send v) s = span (sendEvents v) 1 (phaseAfterSend s.ses) 0 s :=
  effect_eq_span (i := .send v) (s := s) rfl

theorem effect_recv (s : State) : effect .recv s = span (recvEvents (drawAt s)) 1 .reading 1 s :=
  effect_eq_span (i := .recv) (s := s) rfl

theorem effect_xfw (a : Byte) (data : List Byte) (s : State) :
    effect (.xfw a data) s = span (xfwEvents a data) (1 + data.length) .closed 0 s :=
  effect_eq_span (i := .xfw a data) (s := s) rfl

theorem effect_xfr (a : Byte) (n : BitVec 8) (s : State) :
    effect (.xfr a n) s = span (xfrEvents a (drawAt s) n.toNat) 1 .closed n.toNat s :=
  effect_eq_span (i := .xfr a n) (s := s) rfl

theorem bytesOf_add (l : Nat → Level) (m n : Nat) :
    bytesOf l (m + n) = bytesOf l m ++ bytesOf (fun k => l (8 * m + k)) n := by
  simp [bytesOf, List.range_add, Function.comp_def, Nat.mul_add, Nat.add_assoc]

theorem drawAt_span (es : List Event) (k : Nat) (p : Phase) (n : Nat) (s : State) :
    drawAt (span es k p n s) = fun j => drawAt s (8 * n + j) :=
  funext fun j => drawAt_of_draws rfl rfl j

theorem span_span (es fs : List Event) (j k : Nat) (p q : Phase) (m n : Nat) (s : State) :
    span fs k q n (span es j p m s) = span (es ++ fs) (j + k) q (m + n) s := by
  rw [span, drawAt_span]
  simp [span, withEvents, replay_append, bytesOf_add, Nat.mul_add, Nat.add_assoc, List.drop_drop, List.getLast?_append]

theorem newEvents_span (es : List Event) (k : Nat) (p : Phase) (n : Nat) (s : State) :
    newEvents s (span es k p n s) = es := List.drop_left

theorem exec_xfw_eq_span {a : Byte} {data : List Byte} {s : State} (hp : s.psActive = true) (hc : s.ses = .closed) :
    exec (.xfw a data) s = .next (span (xfwEvents a data) (1 + data.length) .closed 0 s) := by
  have hxfw : Runs (.xfw a data) s := ⟨hp, hc⟩
  rw [exec_xfw hxfw, effect_xfw]

theorem exec_xfr_eq_span {a : Byte} {n : BitVec 8} {s : State} (hp : s.psActive = true) (hc : s.ses = .closed) :
    exec (.xfr a n) s = .next (span (xfrEvents a (drawAt s) n.toNat) 1 .closed n.toNat s) := by
  have hxfr : Runs (.xfr a n) s := ⟨hp, hc⟩
  rw [exec_xfr hxfr, effect_xfr]

/-! ## XFW and XFR -/

theorem length_closeEvents : closeEvents.length = 2 := rfl

theorem length_filter_notDelay_closeEvents : (closeEvents.filter notDelay).length = 2 := rfl

theorem length_sends (data : List Byte) : (data.flatMap sendEvents).length = 41 * data.length := by
  simp [List.length_flatMap, length_sendEvents, Nat.mul_comm]

theorem length_filter_notDelay_sends (data : List Byte) :
    ((data.flatMap sendEvents).filter notDelay).length = 25 * data.length := by
  simp [List.filter_flatMap, List.length_flatMap, length_filter_notDelay_sendEvents, Nat.mul_comm]

theorem length_recvsEvents (l : Nat → Level) (n : Nat) : (recvsEvents l n).length = 41 * n := by
  simp [recvsEvents, List.length_flatMap, length_recvEvents, Nat.mul_comm]

theorem length_filter_notDelay_recvsEvents (l : Nat → Level) (n : Nat) :
    ((recvsEvents l n).filter notDelay).length = 25 * n := by
  simp [recvsEvents, List.filter_flatMap, List.length_flatMap, length_filter_notDelay_recvEvents, Nat.mul_comm]

theorem xfwEvents_eq (a : Byte) (data : List Byte) :
    xfwEvents a data = .wr .ce .high :: ((a :: data).flatMap sendEvents ++ closeEvents) := by
  rw [xfwEvents, List.flatMap_cons]

theorem xfrEvents_eq (a : Byte) (l : Nat → Level) (n : Nat) :
    xfrEvents a l n = .wr .ce .high :: sendEvents a ++ .dir .dio .input :: (recvsEvents l n ++ closeEvents) := by
  rw [xfrEvents, List.append_assoc, List.cons_append, List.cons_append]

theorem length_xfwEvents (a : Byte) (data : List Byte) : (xfwEvents a data).length = 44 + 41 * data.length := by
  rw [xfwEvents_eq, List.length_cons, List.length_append, length_sends, List.length_cons, length_closeEvents]
  omega

theorem length_filter_notDelay_xfwEvents (a : Byte) (data : List Byte) :
    ((xfwEvents a data).filter notDelay).length = 28 + 25 * data.length := by
  rw [xfwEvents_eq, List.filter_cons_of_pos rfl, List.length_cons, List.filter_append, List.length_append,
    length_filter_notDelay_sends, List.length_cons, length_filter_notDelay_closeEvents]
  omega

theorem length_xfrEvents (a : Byte) (l : Nat → Level) (n : Nat) : (xfrEvents a l n).length = 45 + 41 * n := by
  rw [xfrEvents_eq, List.length_append, List.length_cons, List.length_cons, List.length_append, length_sendEvents,
    length_recvsEvents, length_closeEvents]
  omega

theorem length_filter_notDelay_xfrEvents (a : Byte) (l : Nat → Level) (n : Nat) :
    ((xfrEvents a l n).filter notDelay).length = 29 + 25 * n := by
  rw [xfrEvents_eq, List.filter_append, List.filter_cons_of_pos rfl, List.filter_cons_of_pos rfl, List.filter_append,
    List.length_append, List.length_cons, List.length_cons, List.length_append, length_filter_notDelay_sendEvents,
    length_filter_notDelay_recvsEvents, length_filter_notDelay_closeEvents]
  omega

theorem encode_xfw (a : Byte) {data : List Byte} (h : data.length ≤ 255) :
    encode (.xfw a data) =
      BitVec.ofNat 32 (0x70000000 + data.length * 0x100 + a.toNat) :: data.map (BitVec.setWidth 32) := by
  have hcnt : (BitVec.ofNat 8 data.length).toNat = data.length := Nat.mod_eq_of_lt (Nat.lt_succ_of_le h)
  have hdata : formatD = BitVec.setWidth 32 := funext fun d => BitVec.ofNat_toNat 32 d
  rw [encode, formatC, hcnt, hdata]
  rfl

theorem exec_xfw_of_psActive_false {a : Byte} {data : List Byte} {s : State} (hp : s.psActive = false) :
    exec (.xfw a data) s = .next (withFault 4 s) :=
  exec_of_find?_faultConditions (c := (4, true)) (by simp [faultConditions, hp])

theorem exec_xfw_of_open {a : Byte} {data : List Byte} {s : State} (hp : s.psActive = true) (hc : s.ses ≠ .closed) :
    exec (.xfw a data) s = .next (withFault 5 s) :=
  exec_of_find?_faultConditions (c := (5, true)) (by simp [faultConditions, hp, hc])

/-- Settles O20: the two refusals are the conditions of codes 4 and 5; the events leave bit 7 of the last byte sent in
the DIO latch. -/
theorem xfwWritesOneSession : Obligations.XfwWritesOneSession := by
  refine fun a data hlen => ⟨encode_xfw a hlen, fun s hp => exec_xfw_of_psActive_false hp,
    fun s hp hc => exec_xfw_of_open hp hc, fun s hp hc => ?_, length_xfwEvents a data,
    length_filter_notDelay_xfwEvents a data⟩
  rw [exec_xfw ⟨hp, hc⟩, effect_eq_of_receivedBytes_zero rfl, commandEvents, replay_xfwEvents, phaseAfter, ← hc,
    Instr.words, ← Nat.add_assoc]
  rfl

theorem exec_xfr_of_psActive_false {a : Byte} {n : BitVec 8} {s : State} (hp : s.psActive = false) :
    exec (.xfr a n) s = .next (withFault 4 s) :=
  exec_of_find?_faultConditions (c := (4, true)) (by simp [faultConditions, hp])

theorem exec_xfr_of_open {a : Byte} {n : BitVec 8} {s : State} (hp : s.psActive = true) (hc : s.ses ≠ .closed) :
    exec (.xfr a n) s = .next (withFault 5 s) :=
  exec_of_find?_faultConditions (c := (5, true)) (by simp [faultConditions, hp, hc])

/-- Settles O21: the two refusals are the conditions of codes 4 and 5; the bytes received leave the DIO latch with bit
7 of the command byte. -/
theorem xfrReadsOneSession : Obligations.XfrReadsOneSession := by
  refine fun a n => ⟨rfl, fun s hp => exec_xfr_of_psActive_false hp, fun s hp hc => exec_xfr_of_open hp hc,
    fun s hp hc => ?_,
    fun l => ⟨length_xfrEvents a l _, length_filter_notDelay_xfrEvents a l _, bytesOf_length l _⟩⟩
  rw [exec_xfr_eq_span hp hc, span, withEvents, replay_xfrEvents, ← hc]
  rfl

/-! ## XFW on the wire -/

theorem sampledAt_sends {p : Pins} (hc : p.latCe = .known .high) (edge : Level) (data : List Byte) :
    sampledAt edge p (data.flatMap sendEvents) = data.flatMap fun b => (byteLevels b).map .known := by
  induction data generalizing p with
  | nil => rfl
  | cons d data ih =>
    have hrest : (replay p (sendEvents d)).latCe = .known .high := by rw [replay_sendEvents]; exact hc
    rw [List.flatMap_cons, sampledAt_append, sampledAt_sendEvents hc, ih hrest, List.flatMap_cons]

theorem sampledAt_closeEvents (edge : Level) (p : Pins) : sampledAt edge p closeEvents = [] := rfl

/-- Settles O45: the command byte and the payload are sent after CE rises and before it falls. -/
theorem xfwWireCarriesBytes : Obligations.XfwWireCarriesBytes := by
  intro a data s t h
  obtain ⟨-, -, rfl⟩ := completes_iff.mp h
  rw [newEvents_effect, commandEvents, xfwEvents_eq]
  refine ⟨fun edge => ?_, _, rfl, ceWrites_sends (a :: data)⟩
  rw [sampledAt_cons_of_clkWrite_none rfl, sampledAt_append, sampledAt_closeEvents, List.append_nil,
    sampledAt_sends rfl]
  simp only [byteLevels, List.map_map]
  rfl

/-! ## The primitive sequences -/

/-- `CEB; SEND a` opens a session and sends its command byte. -/
theorem runAll_ceb_send {s : State} (hf : s.faultCode = 0) (hp : s.psActive = true) (hc : s.ses = .closed) (a : Byte)
    (is : List Instr) :
    runAll (.ceb :: .send a :: is) s = runAll is (span (.wr .ce .high :: sendEvents a) 2 .cmdSent 0 s) := by
  have hceb : Runs .ceb s := ⟨hp, hc⟩
  have hsend : Runs (.send a) (effect .ceb s) := ⟨nofun, nofun⟩
  rw [runAll_of_runs hceb hf, runAll_of_runs hsend hf, effect_send, effect_ceb, span_span]
  rfl

/-- The payload of a write session and its end. -/
theorem runAll_sends_cee {s : State} (hf : s.faultCode = 0) (hs : s.ses = .cmdSent ∨ s.ses = .writing)
    (data : List Byte) :
    runAll (data.map Instr.send ++ [.cee]) s =
      some (span (data.flatMap sendEvents ++ closeEvents) (data.length + 1) .closed 0 s) := by
  induction data generalizing s with
  | nil =>
    have hcee : Runs .cee s := by rcases hs with h | h <;> simp [Runs, h]
    rw [List.map_nil, List.nil_append, runAll_of_runs hcee hf, runAll, effect_cee]
    rfl
  | cons d data ih =>
    have hsend : Runs (.send d) s := by rcases hs with h | h <;> simp [Runs, h]
    have hnext : (effect (.send d) s).ses = .writing := by
      rcases hs with h | h <;> simp [phaseAfter, phaseAfterSend, h]
    rw [List.map_cons, List.cons_append, runAll_of_runs hsend hf, ih (faultCode_effect_of_zero hf) (Or.inr hnext),
      effect_send, span_span, List.flatMap_cons, List.append_assoc, List.length_cons, Nat.add_comm 1,
      Nat.add_right_comm]

/-- The bytes of a read session and its end. -/
theorem runAll_recvs_cee {s : State} (hf : s.faultCode = 0) (hs : s.ses = .cmdSent ∨ s.ses = .reading) (n : Nat) :
    runAll (List.replicate n Instr.recv ++ [.cee]) s =
      some (span (recvsEvents (drawAt s) n ++ closeEvents) (n + 1) .closed n s) := by
  induction n generalizing s with
  | zero =>
    have hcee : Runs .cee s := by rcases hs with h | h <;> simp [Runs, h]
    rw [List.replicate_zero, List.nil_append, runAll_of_runs hcee hf, runAll, effect_cee]
    rfl
  | succ n ih =>
    have hrecv : Runs .recv s := hs
    rw [List.replicate_succ, List.cons_append, runAll_of_runs hrecv hf,
      ih (faultCode_effect_of_zero hf) (Or.inr rfl), effect_recv, span_span, drawAt_span, recvsEvents_succ,
      List.append_assoc, Nat.add_comm 1, Nat.add_comm 1]

theorem runAll_writeSession {s : State} (hf : s.faultCode = 0) (hp : s.psActive = true) (hc : s.ses = .closed)
    (a : Byte) (data : List Byte) :
    runAll (.ceb :: .send a :: (data.map Instr.send ++ [.cee])) s =
      some (span (xfwEvents a data) (data.length + 3) .closed 0 s) := by
  have hopen : (span (.wr .ce .high :: sendEvents a) 2 .cmdSent 0 s).faultCode = 0 := (span_faultCode ..).trans hf
  rw [runAll_ceb_send hf hp hc, runAll_sends_cee hopen (Or.inl (span_ses ..)), span_span, xfwEvents, List.append_assoc,
    List.cons_append, Nat.add_comm 2]

/-- The events of `CEB; SEND a; RECV × n; CEE` (rule R192). -/
def readSessionEvents (a : Byte) (l : Nat → Level) (n : Nat) : List Event :=
  .wr .ce .high :: sendEvents a ++ (recvsEvents l n ++ closeEvents)

theorem runAll_readSession {s : State} (hf : s.faultCode = 0) (hp : s.psActive = true) (hc : s.ses = .closed) (a : Byte)
    (n : Nat) :
    runAll (.ceb :: .send a :: (List.replicate n Instr.recv ++ [.cee])) s =
      some (span (readSessionEvents a (drawAt s) n) (n + 3) .closed n s) := by
  have hopen : (span (.wr .ce .high :: sendEvents a) 2 .cmdSent 0 s).faultCode = 0 := (span_faultCode ..).trans hf
  have hdraws : drawAt (span (.wr .ce .high :: sendEvents a) 2 .cmdSent 0 s) = drawAt s := by simp [drawAt_span]
  rw [runAll_ceb_send hf hp hc, runAll_recvs_cee hopen (Or.inl (span_ses ..)), span_span, hdraws, Nat.add_comm 2,
    Nat.zero_add, readSessionEvents]

/-- Settles O49: the two sides are spans of the same events, of `1 + n` words and of `n + 3`. -/
theorem xfwEqualsPrimitives : Obligations.XfwEqualsPrimitives := by
  intro a data s hf hp hc
  refine ⟨_, _, exec_xfw_eq_span hp hc, runAll_writeSession hf hp hc a data, ?_, span_cidx .., span_cidx ..⟩
  exact span_eq_of_replay_eq rfl _ _ _ _

theorem replay_open_send (p : Pins) (a : Byte) :
    replay p (.wr .ce .high :: sendEvents a) =
      { p with
        dirDio := .known .output, latCe := .known .high, latClk := .known .low,
        latDio := .known (lvl (a.getLsbD 7)) } := by
  rw [replay_cons, replay_sendEvents]
  rfl

/-- One more turn of DIO before the bytes of a read session and its end changes nothing on the pins (rule R22). -/
theorem replay_xfrEvents_eq (p : Pins) (a : Byte) (l : Nat → Level) (n : Nat) :
    replay p (xfrEvents a l n) = replay p (readSessionEvents a l n) := by
  rw [replay_xfrEvents, readSessionEvents, replay_append, replay_open_send, replay_append]
  cases n with
  | zero => rfl
  | succ n =>
    rw [recvsEvents_succ, replay_append, replay_recvEvents, replay_recvs _ _ rfl rfl]
    rfl

/-! ## What the peripheral sees -/

theorem peripheralView_append (p : Pins) (es fs : List Event) :
    peripheralView p (es ++ fs) = peripheralView p es ++ peripheralView (replay p es) fs := by
  induction es generalizing p with
  | nil => rfl
  | cons e es ih =>
    cases e with
    | dir | wr =>
      simp only [List.cons_append, peripheralView, ih, replay_cons]
      split <;> rfl
    | rd | dly => simp only [List.cons_append, peripheralView, ih, replay_cons, applyEvent]

/-- The waveform entry of a thing the peripheral can tell apart, if it is one. -/
def seenWave : Seen → Option Wave
  | .wave w => some w
  | .read _ => none

/-- The waveform is the view of the peripheral without the levels read (rule R47). -/
theorem waveform_eq_filterMap_peripheralView (p : Pins) (es : List Event) :
    waveform p es = (peripheralView p es).filterMap seenWave := by
  induction es generalizing p with
  | nil => rfl
  | cons e es ih =>
    cases e with
    | dir | wr =>
      rw [waveform, peripheralView, ih]
      split <;> rfl
    | rd | dly => rw [waveform, peripheralView, ih]; exact if_pos rfl

theorem waveform_append (p : Pins) (es fs : List Event) :
    waveform p (es ++ fs) = waveform p es ++ waveform (replay p es) fs := by
  simp only [waveform_eq_filterMap_peripheralView, peripheralView_append, List.filterMap_append]

theorem setDir_setDir (p : Pins) (r : Role) (d e : DirState) : setDir (setDir p r d) r e = setDir p r e := by
  cases r <;> rfl

/-- A turn of direction that is repeated at once cannot be seen. -/
theorem peripheralView_dir_dir (p : Pins) (r : Role) (d : Direction) (es : List Event) :
    peripheralView p (.dir r d :: .dir r d :: es) = peripheralView p (.dir r d :: es) := by
  have hsame : applyEvent (applyEvent p (.dir r d)) (.dir r d) = applyEvent p (.dir r d) := setDir_setDir ..
  have hskip : peripheralView (applyEvent p (.dir r d)) (.dir r d :: es) =
      peripheralView (applyEvent p (.dir r d)) es := by
    rw [peripheralView, hsame, if_pos rfl]
  rw [peripheralView, hskip, peripheralView]

theorem recvsEvents_zero (l : Nat → Level) : recvsEvents l 0 = [] := rfl

theorem recvsEvents_eq_cons (l : Nat → Level) {n : Nat} (hn : n ≠ 0) :
    ∃ es, recvsEvents l n = .dir .dio .input :: es := by
  obtain ⟨m, rfl⟩ := Nat.exists_eq_succ_of_ne_zero hn
  rw [recvsEvents_succ]
  exact ⟨_, rfl⟩

/-- For one byte or more the first event of the bytes turns DIO already. -/
theorem peripheralView_xfrEvents (p : Pins) (a : Byte) (l : Nat → Level) {n : Nat} (hn : n ≠ 0) :
    peripheralView p (xfrEvents a l n) = peripheralView p (readSessionEvents a l n) := by
  obtain ⟨es, hes⟩ := recvsEvents_eq_cons l hn
  rw [xfrEvents_eq, readSessionEvents, hes, peripheralView_append, List.cons_append, peripheralView_dir_dir,
    ← peripheralView_append]

theorem waveform_eq_of_peripheralView_eq {p : Pins} {es fs : List Event}
    (h : peripheralView p es = peripheralView p fs) : waveform p es = waveform p fs := by
  rw [waveform_eq_filterMap_peripheralView, h, waveform_eq_filterMap_peripheralView]

/-- Settles O50: the extra turn of DIO stands right before the one of the first byte, which the peripheral sees in its
place. -/
theorem xfrEqualsPrimitives : Obligations.XfrEqualsPrimitives := by
  intro a n s hn hf hp hc
  have hn' : n.toNat ≠ 0 := fun h => hn (BitVec.eq_of_toNat_eq h)
  have hview := peripheralView_xfrEvents s.pins a (drawAt s) hn'
  refine ⟨_, _, exec_xfr_eq_span hp hc, runAll_readSession hf hp hc a n.toNat,
    span_eq_of_replay_eq (replay_xfrEvents_eq ..) _ _ _ _, ?_⟩
  rw [newEvents_span, newEvents_span]
  exact ⟨waveform_eq_of_peripheralView_eq hview, hview, _, _, rfl, xfrEvents_eq ..⟩

/-- Where the block drives DIO and CE High, releasing DIO before CE falls and after it are two waveforms. -/
theorem waveform_release_first_ne {p : Pins} (hdio : p.dirDio = .known .output) (hce : p.dirCe = .known .output)
    (hhigh : p.latCe = .known .high) :
    waveform p (.dir .dio .input :: closeEvents) ≠ waveform p closeEvents := by
  simp [waveform, closeEvents, waveOf, applyEvent, padView, getDir, getLat, setDir, setLat, hdio, hce, hhigh]

/-- Settles O51: with no byte between them, the extra turn of DIO comes before CE falls. -/
theorem xfrOfNoBytesTurnsFirst : Obligations.XfrOfNoBytesTurnsFirst := by
  intro a s hf hp hc hidle
  obtain ⟨-, -, -, hce, -⟩ := hidle
  have hzero : BitVec.toNat (0 : BitVec 8) = 0 := rfl
  refine ⟨_, _, exec_xfr_eq_span hp hc, runAll_readSession hf hp hc a 0,
    span_eq_of_replay_eq (replay_xfrEvents_eq ..) _ _ _ _, ?_⟩
  rw [newEvents_span, newEvents_span, xfrEvents_eq, readSessionEvents, hzero, recvsEvents_zero,
    List.nil_append]
  refine ⟨by simp [Nat.add_assoc], fun h => ?_⟩
  rw [waveform_append, waveform_append, replay_open_send] at h
  exact absurd (List.append_cancel_left h) (waveform_release_first_ne rfl hce rfl)

end Sys2Proof.Machine
end

section
/-! Proofs of the statements of spec/60_exceptions.md: what each command raises, what fault entry writes, the two faults at
the end of the stream, and that only reset clears a fault.

A step enters a fault in two ways, by the command or word at `cidx` and by the end of the stream
(`step_enters_fault_cases`). -/

namespace Sys2Proof.Machine

open Sys2Proof.Safety

/-! ## The fault conditions of a command -/

/-- A command runs exactly where none of its fault conditions holds (rule R213 to rule R218). -/
theorem runs_iff_find?_faultConditions {i : Instr} {s : State} :
    Runs i s ↔ (faultConditions i s).find? (fun c => c.2) = none := by
  refine ⟨find?_faultConditions_of_runs, fun hnone => by_contra fun hr => ?_⟩
  obtain ⟨c, hsome, -⟩ := exec_of_not_runs hr
  cases hnone.symm.trans hsome

/-- Settles O22: the first condition is raised, and with none the command has its whole effect. -/
theorem faultConditionsDecide : Obligations.FaultConditionsDecide := by
  intro i s
  split
  next c hsome => exact exec_of_find?_faultConditions hsome
  next hnone => exact ⟨effect i s, exec_of_runs (runs_iff_find?_faultConditions.mpr hnone), rfl, rfl⟩

/-! ## Fault entry -/

/-- The two ways a step enters a fault (rule R222). -/
theorem step_enters_fault_cases {s t : State} (hf : s.faultCode = 0) (h : step s = .next t) (ht : t.faultCode ≠ 0) :
    (s.cidx < s.stream.length ∧ ∃ c, t = raise c s) ∨ (s.cidx = s.stream.length ∧ ∃ c, t = raiseAtEnd c s) := by
  obtain ⟨-, ⟨hne, -⟩ | ⟨-, hlt, ⟨i, rest, -, he⟩ | ⟨-, rfl⟩ | ⟨-, rfl⟩⟩ | ⟨-, hend, rfl⟩⟩ := step_cases h
  · exact absurd hf hne
  · rcases exec_cases he with ⟨-, rfl⟩ | ⟨-, c, -, rfl⟩
    · exact absurd hf ht
    · exact Or.inl ⟨hlt, c, rfl⟩
  · exact Or.inl ⟨hlt, _, rfl⟩
  · exact Or.inl ⟨hlt, _, rfl⟩
  · rcases endOfStream_cases s with ⟨-, he⟩ | ⟨-, -, he⟩ | ⟨-, -, he⟩
    · exact Or.inr ⟨hend, _, he⟩
    · exact Or.inr ⟨hend, _, he⟩
    · rw [he] at ht
      exact absurd hf ht

/-- Settles O23: each of the two ways writes its own position and word. -/
theorem faultEntryChangesNothingElse : Obligations.FaultEntryChangesNothingElse := by
  intro s t hf h ht
  rcases step_enters_fault_cases hf h ht with ⟨hlt, c, rfl⟩ | ⟨hend, c, rfl⟩
  · rw [if_pos hlt, if_pos hlt]
    rfl
  · have hlt : ¬ s.cidx < s.stream.length := hend.not_lt
    rw [if_neg hlt, if_neg hlt]
    rfl

/-- A step that changes FAULT_CODE records the code of a fault condition. -/
theorem faultCode_of_step {s t : State} (h : step s = .next t) (hne : t.faultCode ≠ s.faultCode) :
    ∃ c, t.faultCode = causeCode c := by
  rcases step_effect_cases h with rfl | ⟨c, idx, word, rfl⟩ | ⟨i, rest, -, -, -, -, rfl⟩
  · exact absurd rfl hne
  · exact ⟨c, rfl⟩
  · exact absurd rfl hne

/-! ## The end of the stream -/

/-- An open session is reported whether the pin session is active or not (rule R219). -/
theorem endOfStream_of_open {s : State} (hs : s.ses ≠ .closed) : endOfStream s = raiseAtEnd .sessionLeftOpen s :=
  if_pos hs

theorem endOfStream_of_closed_active {s : State} (hs : s.ses = .closed) (hp : s.psActive = true) :
    endOfStream s = raiseAtEnd .pinSessionLeftActive s :=
  (if_neg (not_not_intro hs)).trans (if_pos hp)

/-- Settles O26: the code is that of the second check, and every code recorded is that of one of the ten conditions. -/
theorem pinSessionLeftActiveFaults : Obligations.PinSessionLeftActiveFaults := by
  constructor
  · intro s hl hf hend hs hp
    rw [step_ended hl hf hend, endOfStream_of_closed_active hs hp]
    rfl
  · intro s t h hne
    obtain ⟨c, hc⟩ := faultCode_of_step h hne
    rw [hc]
    exact causeCode_le_ten c

/-- Settles O25: the open session is the first check. -/
theorem sessionLeftOpenFaults : Obligations.SessionLeftOpenFaults := by
  intro s hl hf hend hs
  rw [step_ended hl hf hend, endOfStream_of_open hs]
  rfl

/-! ## A recorded fault -/

theorem not_complete_of_faulted {s : State} (hf : s.faultCode ≠ 0) : ¬ Complete s := fun ⟨hzero, _⟩ => hf hzero

/-- Settles O24: a faulted block is stopped, is not complete, and is cleared by reset. -/
theorem faultIsSticky : Obligations.FaultIsSticky := fun _ hl hf =>
  ⟨step_stopped hl hf, not_complete_of_faulted hf, rfl⟩

end Sys2Proof.Machine
end

section
/-! Proofs of the statements of spec/70_reset_and_hazards.md: the two ends of a run and that every run reaches one of them,
the pads at reset, the delays and the least time of each command.

A step that does not end the run moves `cidx` on (`step_ends_or_advances`), and `cidx` never passes the end of the stream,
so the words left bound the steps left (`run_ends`). -/

namespace Sys2Proof.Machine

open Sys2Proof.Safety

/-! ## A complete run -/

theorem endOfStream_of_closed_inactive {s : State} (hs : s.ses = .closed) (hp : s.psActive = false) :
    endOfStream s = s := by
  rw [endOfStream, if_neg (not_not_intro hs), hp]
  rfl

theorem step_of_complete {s : State} (hl : StreamFits s) (h : Complete s) : step s = .next s := by
  obtain ⟨hf, hend, hs, hp⟩ := h
  rw [step_ended hl hf hend, endOfStream_of_closed_inactive hs hp]

theorem statusWord_of_complete {s : State} (h : Complete s) : statusWord s = 0 := by
  obtain ⟨hf, -, hs, hp⟩ := h
  simp [statusWord, isFaulted, phaseCode, hf, hs, hp]

/-- Settles O27: neither check at the end of the stream raises a fault, and every field of STATUS reads 0. -/
theorem completeRunStays : Obligations.CompleteRunStays := fun _ hl h =>
  ⟨step_of_complete hl h, statusWord_of_complete h⟩

/-! ## Every run ends -/

theorem raiseAtEnd_faultCode_ne_zero (c : FaultCause) (s : State) : (raiseAtEnd c s).faultCode ≠ 0 :=
  causeCode_ne_zero c

/-- The end of the stream is the end of the run, faulted or complete (rule R245). -/
theorem endOfStream_ends {s : State} (hf : s.faultCode = 0) (hend : s.cidx = s.stream.length) :
    Faulted (endOfStream s) ∨ Complete (endOfStream s) := by
  rcases endOfStream_cases s with ⟨-, he⟩ | ⟨-, -, he⟩ | ⟨hs, hp, he⟩
  · exact Or.inl (he.symm ▸ raiseAtEnd_faultCode_ne_zero _ s)
  · exact Or.inl (he.symm ▸ raiseAtEnd_faultCode_ne_zero _ s)
  · exact Or.inr (he.symm ▸ ⟨hf, hend, hs, hp⟩)

theorem words_pos (i : Instr) : 0 < i.words := by
  cases i with
  | psb | pse | ceb | cee | send | recv | xfr => exact Nat.one_pos
  | xfw a data => exact Nat.add_pos_left Nat.one_pos _

/-- A step ends the run or completes a command, of one word or more (rule R36). -/
theorem step_ends_or_advances {s t : State} (h : step s = .next t) :
    (Faulted t ∨ Complete t) ∨ s.cidx < t.cidx := by
  obtain ⟨-, ⟨hne, rfl⟩ | ⟨-, -, ⟨i, rest, -, he⟩ | ⟨-, rfl⟩ | ⟨-, rfl⟩⟩ | ⟨hf, hend, rfl⟩⟩ := step_cases h
  · exact Or.inl (Or.inl hne)
  · rcases exec_cases he with ⟨-, rfl⟩ | ⟨-, c, -, rfl⟩
    · exact Or.inr (Nat.lt_add_of_pos_right (words_pos i))
    · exact Or.inl (Or.inl (raise_faultCode_ne_zero c s))
  · exact Or.inl (Or.inl (raise_faultCode_ne_zero _ s))
  · exact Or.inl (Or.inl (raise_faultCode_ne_zero _ s))
  · exact Or.inl (endOfStream_ends hf hend)

/-- A run that has ended stays as it is (log entries 6 and 7). -/
theorem run_of_ended {s : State} (hl : StreamFits s) (h : Faulted s ∨ Complete s) (k : Nat) :
    core.run k s = .next s := by
  have hstep : step s = .next s := h.elim (step_stopped hl) (step_of_complete hl)
  induction k with
  | zero => rfl
  | succ k ih => exact (run_succ k hstep).trans ih

/-- From the invariant, one step more than there are words from `cidx` on ends the run. -/
theorem run_ends (n : Nat) {s : State} (hi : Invariant s) (hl : StreamFits s) (hn : s.stream.length < s.cidx + n) :
    ∃ t, (Faulted t ∨ Complete t) ∧ ∀ k, core.run (n + k) s = .next t := by
  induction n generalizing s with
  | zero => exact absurd hi.cidxInStream (Nat.not_le_of_lt hn)
  | succ n ih =>
    obtain ⟨u, hu⟩ := invariantNeverStops s hi hl
    have hstream := step_stream hu
    have hlu : StreamFits u := by rw [StreamFits, hstream]; exact hl
    have hrun (k : Nat) : core.run (n + 1 + k) s = core.run (n + k) u := by
      rw [Nat.add_right_comm]
      exact run_succ (n + k) hu
    simp only [hrun]
    rcases step_ends_or_advances hu with hend | hlt
    · exact ⟨u, hend, fun k => run_of_ended hlu hend (n + k)⟩
    · exact ih (stepKeepsInvariant s u hi hu) hlu (by rw [hstream]; omega)

/-- Settles O57: a run starts with the invariant, and no more words are left than the stream has. -/
theorem everyRunEnds : Obligations.EveryRunEnds := by
  intro s hs hl
  obtain ⟨t, hend, hrun⟩ := run_ends (s.stream.length + 1) (invariant_of_runStart hs) hl (by omega)
  exact ⟨t, hrun 0, hend, hrun⟩

/-! ## Pads at reset -/

/-- Where the block has not configured a pin, its pad may show any level (rule R24). -/
theorem padMay_of_dir_unknown {p : Pins} {r : Role} (h : getDir p r = .unknown) (other : Bool) (l : Level) :
    padMay p r other l = true := by
  rw [padMay_iff]
  intro m hm
  obtain ⟨hout, -⟩ := (padView_eq_level_iff p r m).mp hm
  cases h.symm.trans hout

/-- Settles O34: at reset every direction is Unknown. -/
theorem padsFreeAtReset : Obligations.PadsFreeAtReset := by
  intro r other l
  obtain ⟨hpins, -⟩ := resetState State.reset State.reset (Or.inl rfl)
  obtain ⟨hdir, -⟩ := hpins r
  exact padMay_of_dir_unknown hdir other l

/-! ## Delays -/

theorem replay_filter_notDelay (p : Pins) (es : List Event) : replay p (es.filter notDelay) = replay p es := by
  induction es generalizing p with
  | nil => rfl
  | cons e es ih =>
    cases e with
    | dir | wr | rd => rw [List.filter_cons_of_pos rfl, replay_cons, ih, replay_cons]
    | dly => exact ih p

theorem peripheralView_filter_notDelay (p : Pins) (es : List Event) :
    peripheralView p (es.filter notDelay) = peripheralView p es := by
  induction es generalizing p with
  | nil => rfl
  | cons e es ih =>
    cases e with
    | dir | wr | rd => rw [List.filter_cons_of_pos rfl, peripheralView, ih, peripheralView]
    | dly => exact ih p

/-- Settles O46: a delay leaves the pins as they are and the peripheral sees nothing of it, and the waveform is part of
what it sees. -/
theorem delaysAreInvisible : Obligations.DelaysAreInvisible := fun p es =>
  have hview := peripheralView_filter_notDelay p es
  ⟨replay_filter_notDelay p es, waveform_eq_of_peripheralView_eq hview, hview⟩

/-! ## Least times -/

theorem minTime_append (es fs : List Event) : minTime (es ++ fs) = minTime es + minTime fs := by
  induction es with
  | nil => exact (Nat.zero_add _).symm
  | cons e es ih =>
    cases e with
    | dir | wr | rd => exact ih
    | dly t => rw [List.cons_append, minTime, minTime, ih, Nat.add_assoc]

/-- Pieces of one least time each. -/
theorem minTime_flatMap {α : Type} {f : α → List Event} {c : Nat} (h : ∀ x, minTime (f x) = c) (xs : List α) :
    minTime (xs.flatMap f) = xs.length * c := by
  induction xs with
  | nil => exact (Nat.zero_mul c).symm
  | cons x xs ih => rw [List.flatMap_cons, minTime_append, h, ih, List.length_cons, Nat.succ_mul, Nat.add_comm]

theorem minTime_pulseEvents : minTime pulseEvents = 2 * Config.tPulseUs := (Nat.two_mul _).symm

/-- The pulses of a byte sent take 16 T (rule R254). -/
theorem minTime_sendEvents (v : Byte) : minTime (sendEvents v) = 16 * Config.tPulseUs := by
  have hbits := minTime_flatMap (f := fun i => .wr .dio (lvl (v.getLsbD i)) :: pulseEvents)
    (fun _ => minTime_pulseEvents) (List.range 8)
  rw [sendEvents, minTime, hbits, List.length_range, ← Nat.mul_assoc]

/-- The pulses of a byte received take 16 T (rule R254). -/
theorem minTime_recvEvents (l : Nat → Level) : minTime (recvEvents l) = 16 * Config.tPulseUs := by
  have hbits := minTime_flatMap (f := fun i => .rd .dio (l i) :: pulseEvents) (fun _ => minTime_pulseEvents)
    (List.range 8)
  rw [recvEvents, minTime, hbits, List.length_range, ← Nat.mul_assoc]

theorem minTime_sends (data : List Byte) :
    minTime (data.flatMap sendEvents) = data.length * (16 * Config.tPulseUs) :=
  minTime_flatMap minTime_sendEvents data

theorem minTime_recvsEvents (l : Nat → Level) (n : Nat) :
    minTime (recvsEvents l n) = n * (16 * Config.tPulseUs) := by
  rw [recvsEvents, minTime_flatMap (fun _ => minTime_recvEvents _), List.length_range]

theorem minTime_closeEvents : minTime closeEvents = 0 := rfl

/-- The delays of a command are those of the bytes it transfers (rule R254). -/
theorem minTime_commandEvents (l : Nat → Level) (i : Instr) :
    minTime (commandEvents l i) = wireBytes i * (16 * Config.tPulseUs) := by
  cases i with
  | psb | pse | ceb | cee => exact (Nat.zero_mul _).symm
  | send v => rw [commandEvents, minTime_sendEvents, wireBytes, Nat.one_mul]
  | recv => rw [commandEvents, minTime_recvEvents, wireBytes, Nat.one_mul]
  | xfw a data =>
    rw [commandEvents, xfwEvents_eq, minTime, minTime_append, minTime_sends, minTime_closeEvents, Nat.add_zero,
      List.length_cons, wireBytes]
  | xfr a n =>
    rw [commandEvents, xfrEvents_eq, List.cons_append, minTime, minTime_append, minTime, minTime_append,
      minTime_sendEvents, minTime_recvsEvents, minTime_closeEvents, Nat.add_zero, wireBytes, Nat.succ_mul n.toNat,
      Nat.add_comm]

/-- Settles O47: a command that completes appends its events and no others. -/
theorem leastTimes : Obligations.LeastTimes := by
  intro i s t h
  obtain ⟨-, -, rfl⟩ := completes_iff.mp h
  rw [newEvents_effect, minTime_commandEvents, Nat.mul_left_comm, Nat.mul_assoc]

end Sys2Proof.Machine
end
